-- ==== Sys2Proof/Word.lean ====
section
/-!
DEFINITION. The byte, and the closed sets of names the spec's operands, contexts and results are
drawn from (40_primitives.md R98 to R104, 30_encoding.md R66 and R71, 60_exceptions.md R201,
46_decoder.md R188). The byte each name is sent as stands in `Machine/Operands.lean`.
-/

namespace Sys2Proof

/-- 00_scope.md R6: an unsigned integer 0 to 255. -/
abbrev Byte := BitVec 8

/-- 40_primitives.md R98. -/
inductive Direction where
  | clockwise
  | counterClockwise
  deriving DecidableEq, Repr

/-- 40_primitives.md R99. -/
inductive EnableLogic where
  | low
  | high
  | alwaysOn
  deriving DecidableEq, Repr

/-- 40_primitives.md R100. -/
inductive ZeroMode where
  | disabled
  | directionMode
  | nearestMode
  deriving DecidableEq, Repr

/-- 40_primitives.md R101. -/
inductive SaveClear where
  | save
  | clear
  deriving DecidableEq, Repr

/-- The two status bytes an acknowledgement may carry, 46_decoder.md R180. -/
inductive AckStatus where
  | success
  | failure
  deriving DecidableEq, Repr

/-- 46_decoder.md R184. -/
inductive EnPinStatus where
  | enabled
  | disabled
  deriving DecidableEq, Repr

/-- 46_decoder.md R185. -/
inductive ShaftStatus where
  | blocked
  | unblocked
  deriving DecidableEq, Repr

/-- A command selector: one of the 27 of 30_encoding.md R66, and nothing else (R69). -/
inductive Cmd where
  | readEncoder
  | readPulses
  | readAngle
  | readAngleError
  | readEnPin
  | readReleaseStatus
  | readShaftStatus
  | setCurrentLimit
  | setSubdivision
  | setEnableLogic
  | setDirection
  | setAutoScreenOff
  | setStallProtection
  | setInterpolation
  | setZeroMode
  | setZeroSpeed
  | setZeroDirection
  | runMotor
  | runPulses
  | stop
  | enableMotor
  | setKp
  | setKi
  | setKd
  | setAcceleration
  | setMaxTorque
  | saveClear
  deriving DecidableEq, Repr

/-- The four command-frame formats of 30_encoding.md R61. -/
inductive Format where
  /-- No payload: 3 bytes. -/
  | cf0
  /-- One payload byte: 4 bytes. -/
  | cf1
  /-- One 16-bit value: 5 bytes. -/
  | cf2
  /-- Direction and speed byte, 24-bit pulse count: 7 bytes. -/
  | cf4
  deriving DecidableEq, Repr

/-- The six response layouts of 30_encoding.md R71. -/
inductive RespKind where
  | ack
  | enPin
  | shaft
  | i16
  | i32
  | enc
  deriving DecidableEq, Repr

/-- The closed error set, 60_exceptions.md R201: nine members, none with a payload. -/
inductive Err where
  | invalidAddress
  | invalidSpeed
  | invalidCurrentLimit
  | invalidSubdivision
  | invalidTorque
  | invalidPulseCount
  | invalidPacket
  | invalidResponse
  | deviceReportedFailure
  deriving DecidableEq, Repr

/-- What an operation that succeeds returns: nothing (`reset`, `set_address`), a command frame
(`encode`, 00_scope.md R8), or one of the six typed results of `decode` (46_decoder.md R188).
Numbers are held exactly, as the integers R95 and R96 give (log entry 18). -/
inductive Value where
  | unit
  | frame (bytes : List Byte)
  | ack
  | encoder (carry : Int) (value : Nat)
  | int32 (v : Int)
  | int16 (v : Int)
  | enPin (s : EnPinStatus)
  | shaft (s : ShaftStatus)
  deriving DecidableEq, Repr

/-- The one result every operation ends with: `Ok(v)` or `Err(E)`, 60_exceptions.md R200. -/
inductive Result where
  | ok (v : Value)
  | err (e : Err)
  deriving DecidableEq, Repr

/-- Which half of the opcode table a word is read by: a command frame, or a response of the kind
the command context selects (30_encoding.md R74: a response does not tell its own kind). -/
inductive Port where
  | command
  | response (k : RespKind)
  deriving DecidableEq, Repr

/-- Why bytes or a number given at the model's boundary are no instruction (60_exceptions.md R222). -/
inductive DecodeError where
  /-- The length is not the command's frame length (30_encoding.md R61). -/
  | length
  /-- Byte 1 is none of the 27 opcodes (30_encoding.md R68 a). -/
  | opcode
  /-- The payload is none the command can carry (30_encoding.md R68 d). -/
  | operand
  /-- The last byte is not the checksum of the others (30_encoding.md R68 e). -/
  | checksum
  /-- Byte 0 is no device address (30_encoding.md R68 b). -/
  | address
  /-- The number does not fit its word, or the word is not whole bytes (30_encoding.md R77, R94). -/
  | width
  deriving DecidableEq, Repr

end Sys2Proof
end

