-- ==== Sys2Proof/Machine/Marshal.lean ====
section
/-!
DEFINITION. The function blocks over byte sequences: the checksum-8 generator CHK8, the frame
checksum validator CSV and the big-endian marshaller BEM (40_primitives.md R90 to R96). They read
and write no state.
-/

namespace Sys2Proof.Machine

/-- 00_scope.md R6: the subsequence `s[i..j)`, empty when `i ≥ j`. -/
def slice (s : List Byte) (i j : Nat) : List Byte :=
  (s.drop i).take (j - i)

/-- CHK8, 40_primitives.md R90: the low 8 bits of the arithmetic sum of the byte values. -/
def chk8 (s : List Byte) : Byte :=
  BitVec.ofNat 8 (s.map BitVec.toNat).sum

/-- CSV, 40_primitives.md R93: the sequence is not empty and its last byte is the checksum of the
bytes before it. -/
def frameValid (s : List Byte) : Bool :=
  s.getLast? == some (chk8 s.dropLast)

/-- The shape of every command frame, 30_encoding.md R60 and R64: address, opcode, payload, and the
checksum of all of them. -/
def frameOf (address op : Byte) (payload : List Byte) : List Byte :=
  address :: op :: payload ++ [chk8 (address :: op :: payload)]

/-- BEM put, 40_primitives.md R94: the `n` bytes of `v`, most significant first. The rule's input
satisfies `v < 2 ^ (8 * n)` with `n` from 1 to 4, as every meaning does; what the formula gives
outside that is the model's own. DESIGN CHOICE: log entries 19 and 20. -/
def bePut (v : Nat) : Nat → List Byte
  | 0 => []
  | n + 1 => BitVec.ofNat 8 (v >>> (8 * n)) :: bePut v n

/-- BEM unsigned get, 40_primitives.md R95. -/
def beGetU : List Byte → Nat
  | [] => 0
  | b :: bs => b.toNat * 256 ^ bs.length + beGetU bs

/-- BEM signed get, 40_primitives.md R96: two's complement over the whole field (GK13).
PRESUMED, unsafe: log entry 7. -/
def beGetS (s : List Byte) : Int :=
  if 2 ^ (8 * s.length - 1) ≤ beGetU s then (beGetU s : Int) - 2 ^ (8 * s.length)
  else (beGetU s : Int)

/-- `MemRead(a, n)` of 00_scope.md R7: big-endian unsigned load from the received bytes. -/
def memRead (rx : List Byte) (a n : Nat) : Nat :=
  beGetU (slice rx a (a + n))

end Sys2Proof.Machine
end

