-- ==== Sys2Proof/Config.lean ====
section
/-!
DEFINITION. The two sizes the types of the model rest on (00_scope.md R5). Every other parameter of
R5 stands in `Machine/Params.lean`, in the same namespace.
-/

namespace Sys2Proof.Config

/-- `BUF_CAP`: bytes in the scratch buffer and the largest frame. -/
abbrev bufCap : Nat := 10

/-- `PAYLOAD_MAX`: the largest payload of a command frame. -/
abbrev payloadMax : Nat := 7

end Sys2Proof.Config
end

