-- ==== Sys2Proof/Machine/Params.lean ====
section
/-!
DEFINITION. The parameters of 00_scope.md R5 with the values this hardware takes, and the opcode
map of 30_encoding.md R66. "source": doc00 states the value; a GK or D number: the spec's own
default or decision, held here by name in one place.
-/

namespace Sys2Proof.Config

/-- `ADDR_MIN` (source). -/
abbrev addrMin : Nat := 0xE0

/-- `ADDR_MAX` (source). -/
abbrev addrMax : Nat := 0xE9

/-- `ADDR_RESET`, an OPEN parameter with default 0xE0 (D3, GK9).
PRESUMED, unsafe: log entry 2. -/
def addrReset : Byte := 0xE0#8

/-- The byte `reset` and every successful `encode` write where no frame byte stands (D4, D5).
DESIGN CHOICE of the spec, unsafe: log entries 3 and 4. -/
def fillByte : Byte := 0x00#8

/-- `SPEED_MAX` (source). -/
abbrev speedMax : Nat := 0x7F

/-- `DIR_CCW_BIT` (source §8 by its worked example; C1, D28): counter-clockwise sets bit 7.
DEDUCED, unsafe: log entry 5. -/
def dirCcwBit : Byte := 0x80#8

/-- `SUBDIV_MIN` (source). -/
abbrev subdivMin : Nat := 1

/-- `SUBDIV_MAX` (source). -/
abbrev subdivMax : Nat := 256

/-- `CURRENT_MAX` (source). -/
abbrev currentMax : Nat := 15

/-- `TORQUE_MAX` (source). -/
abbrev torqueMax : Nat := 0x4B0

/-- `PULSE_BYTES` (source). -/
abbrev pulseBytes : Nat := 3

/-- `PULSE_MAX`, the capacity of the field (D10).
DESIGN CHOICE of the spec, unsafe: log entry 5. -/
abbrev pulseMax : Nat := 0xFFFFFF

/-- `ZERO_SPEED_MAX` (D12, GK5).
PRESUMED, unsafe: log entry 5. -/
abbrev zeroSpeedMax : Nat := 4

/-- `SAVE_BYTE` (source). -/
def saveByte : Byte := 0xC8#8

/-- `CLEAR_BYTE` (source). -/
def clearByte : Byte := 0xCA#8

/-- `BOOL_TRUE` (source for the enable command; D7 for the others, log entry 5). -/
def boolTrue : Byte := 0x01#8

/-- `BOOL_FALSE` (D7, GK2). PRESUMED, unsafe: log entry 5. -/
def boolFalse : Byte := 0x00#8

/-- `ACK_OK` (D16, GK6). PRESUMED, unsafe: log entry 6. -/
def ackOk : Byte := 0x01#8

/-- `ACK_FAIL` (D16, GK6). PRESUMED, unsafe: log entry 6. -/
def ackFail : Byte := 0x00#8

/-- The opcode map, 30_encoding.md R66. 0xF3, 0xF6 and 0xF7 are the source's; the other 24 are OPEN
parameters with the spec's defaults (D6, GK1). PRESUMED, unsafe: log entry 1. -/
def opcode : Cmd → Byte
  | .readEncoder => 0x30#8
  | .readPulses => 0x33#8
  | .readAngle => 0x36#8
  | .readAngleError => 0x39#8
  | .readEnPin => 0x3A#8
  | .readReleaseStatus => 0x3D#8
  | .readShaftStatus => 0x3E#8
  | .setCurrentLimit => 0x83#8
  | .setSubdivision => 0x84#8
  | .setEnableLogic => 0x85#8
  | .setDirection => 0x86#8
  | .setAutoScreenOff => 0x87#8
  | .setStallProtection => 0x88#8
  | .setInterpolation => 0x89#8
  | .setZeroMode => 0x90#8
  | .setZeroSpeed => 0x92#8
  | .setZeroDirection => 0x93#8
  | .runMotor => 0xF6#8
  | .runPulses => 0xFD#8
  | .stop => 0xF7#8
  | .enableMotor => 0xF3#8
  | .setKp => 0xA1#8
  | .setKi => 0xA2#8
  | .setKd => 0xA3#8
  | .setAcceleration => 0xA4#8
  | .setMaxTorque => 0xA5#8
  | .saveClear => 0xFF#8

/-- The expected length `N` of a response of each kind, 30_encoding.md R71 (D15, GK8).
PRESUMED, unsafe: log entry 6. -/
def responseLength : RespKind → Nat
  | .ack => 3
  | .enPin => 3
  | .shaft => 3
  | .i16 => 4
  | .i32 => 6
  | .enc => 8

end Sys2Proof.Config
end

