-- ==== Sys2Proof/Syntax.lean ====
section
/-!
DEFINITION. The instructions: one constructor for each row of spec/opcode_table.json, with its
operands at the widths of their ports (30_encoding.md R65). `reset` and `set_address` have no row
and no encoding; they are requests of the host (`Machine/State.lean`).
-/

namespace Sys2Proof

/-- The 27 commands (30_encoding.md R66) and the six response formats under which `decode` reads
received bytes (30_encoding.md R71). A value of a port's type may lie outside its legal range: the
command then returns its error (60_exceptions.md R222). -/
inductive Instr where
  | readEncoder
  | readPulses
  | readAngle
  | readAngleError
  | readEnPin
  | readReleaseStatus
  | readShaftStatus
  | setCurrentLimit (idx : BitVec 8)
  | setSubdivision (sub : BitVec 16)
  | setEnableLogic (e : EnableLogic)
  | setDirection (d : Direction)
  | setAutoScreenOff (b : Bool)
  | setStallProtection (b : Bool)
  | setInterpolation (b : Bool)
  | setZeroMode (z : ZeroMode)
  | setZeroSpeed (v : BitVec 8)
  | setZeroDirection (d : Direction)
  | runMotor (d : Direction) (speed : BitVec 8)
  | runPulses (d : Direction) (speed : BitVec 8) (pulses : BitVec 32)
  | stop
  | enableMotor (b : Bool)
  | setKp (v : BitVec 16)
  | setKi (v : BitVec 16)
  | setKd (v : BitVec 16)
  | setAcceleration (v : BitVec 16)
  | setMaxTorque (v : BitVec 16)
  | saveClear (c : SaveClear)
  | decodeAck (rx : List Byte)
  | decodeEnPin (rx : List Byte)
  | decodeShaft (rx : List Byte)
  | decodeI16 (rx : List Byte)
  | decodeI32 (rx : List Byte)
  | decodeEnc (rx : List Byte)
  deriving DecidableEq, Repr

end Sys2Proof
end

