-- ==== Sys2Proof/Machine/Operands.lean ====
section
/-!
DEFINITION. Every operand form of 30_encoding.md R65 with its way back (R78), the enumeration tables
in both directions (40_primitives.md R98 to R104, 46_decoder.md R180, R184, R185), and what each
command selector fixes: its frame format (R61) and its response kind (R72).
-/

namespace Sys2Proof

/-- `addr_valid`, 40_primitives.md R108: 0xE0 to 0xE9. -/
def addrValid (a : Byte) : Bool :=
  decide (Config.addrMin ≤ a.toNat ∧ a.toNat ≤ Config.addrMax)

/-- 40_primitives.md R98, payload-byte map (D8, GK3). PRESUMED, unsafe: log entry 5. -/
def Direction.toByte : Direction → Byte
  | .clockwise => 0x00#8
  | .counterClockwise => 0x01#8

/-- 40_primitives.md R98, inverse map: every other byte is not a `Direction`. -/
def Direction.ofByte (b : Byte) : Option Direction :=
  if b = 0x00#8 then some .clockwise
  else if b = 0x01#8 then some .counterClockwise
  else none

/-- 40_primitives.md R99 (D8, GK3). PRESUMED, unsafe: log entry 5. -/
def EnableLogic.toByte : EnableLogic → Byte
  | .low => 0x00#8
  | .high => 0x01#8
  | .alwaysOn => 0x02#8

/-- 40_primitives.md R99, inverse map. -/
def EnableLogic.ofByte (b : Byte) : Option EnableLogic :=
  if b = 0x00#8 then some .low
  else if b = 0x01#8 then some .high
  else if b = 0x02#8 then some .alwaysOn
  else none

/-- 40_primitives.md R100 (D8, GK3). PRESUMED, unsafe: log entry 5. -/
def ZeroMode.toByte : ZeroMode → Byte
  | .disabled => 0x00#8
  | .directionMode => 0x01#8
  | .nearestMode => 0x02#8

/-- 40_primitives.md R100, inverse map. -/
def ZeroMode.ofByte (b : Byte) : Option ZeroMode :=
  if b = 0x00#8 then some .disabled
  else if b = 0x01#8 then some .directionMode
  else if b = 0x02#8 then some .nearestMode
  else none

/-- 40_primitives.md R101. -/
def SaveClear.toByte : SaveClear → Byte
  | .save => Config.saveByte
  | .clear => Config.clearByte

/-- 40_primitives.md R101, inverse map. -/
def SaveClear.ofByte (b : Byte) : Option SaveClear :=
  if b = Config.saveByte then some .save
  else if b = Config.clearByte then some .clear
  else none

/-- 40_primitives.md R102. -/
def boolToByte (b : Bool) : Byte :=
  if b then Config.boolTrue else Config.boolFalse

/-- 40_primitives.md R102, inverse map. -/
def boolOfByte (b : Byte) : Option Bool :=
  if b = Config.boolTrue then some true
  else if b = Config.boolFalse then some false
  else none

/-- 46_decoder.md R180, the acknowledgement's status table. -/
def AckStatus.toByte : AckStatus → Byte
  | .success => Config.ackOk
  | .failure => Config.ackFail

/-- 46_decoder.md R180, inverse map: any other byte is unrecognised. -/
def AckStatus.ofByte (b : Byte) : Option AckStatus :=
  if b = Config.ackOk then some .success
  else if b = Config.ackFail then some .failure
  else none

/-- 46_decoder.md R184 (D17, GK7). PRESUMED, unsafe: log entry 6. -/
def EnPinStatus.toByte : EnPinStatus → Byte
  | .enabled => 0x01#8
  | .disabled => 0x02#8

/-- 46_decoder.md R184, inverse map. -/
def EnPinStatus.ofByte (b : Byte) : Option EnPinStatus :=
  if b = 0x01#8 then some .enabled
  else if b = 0x02#8 then some .disabled
  else none

/-- 46_decoder.md R185 (D17, GK7). PRESUMED, unsafe: log entry 6. -/
def ShaftStatus.toByte : ShaftStatus → Byte
  | .blocked => 0x01#8
  | .unblocked => 0x02#8

/-- 46_decoder.md R185, inverse map. -/
def ShaftStatus.ofByte (b : Byte) : Option ShaftStatus :=
  if b = 0x01#8 then some .blocked
  else if b = 0x02#8 then some .unblocked
  else none

/-- The bit a `Direction` puts into the speed byte, 40_primitives.md R98 and R103. -/
def Direction.speedBit : Direction → Byte
  | .clockwise => 0x00#8
  | .counterClockwise => Config.dirCcwBit

/-- `pack_ds`, 40_primitives.md R103: form `ds` of 30_encoding.md R65. The rule takes `speed ≤ 0x7F`,
which every meaning checks first; for a larger speed, which only `encode` of an ill-formed instruction
gives, the OR is kept. DESIGN CHOICE: log entry 20. -/
def packDs (d : Direction) (speed : BitVec 8) : Byte :=
  d.speedBit ||| speed

/-- 40_primitives.md R103, inverse: the direction of a `ds` byte. -/
def dsDirection (b : Byte) : Direction :=
  if b &&& Config.dirCcwBit = 0x00#8 then .clockwise else .counterClockwise

/-- 40_primitives.md R103, inverse: the speed of a `ds` byte, its other seven bits. -/
def dsSpeed (b : Byte) : BitVec 8 :=
  b &&& ~~~Config.dirCcwBit

/-- Form `sub` of 30_encoding.md R65: `s mod 256` (D9, GK4). PRESUMED, unsafe: log entry 5. The form
takes 1 to 256; outside that: log entry 20. -/
def subToByte (s : BitVec 16) : Byte :=
  BitVec.ofNat 8 (s.toNat % 256)

/-- 30_encoding.md R78: the subdivision a `sub` byte reads back as, 0x00 as 256. -/
def subOfByte (b : Byte) : BitVec 16 :=
  if b = 0x00#8 then 256#16 else BitVec.ofNat 16 b.toNat

/-- Form `u16be` of 30_encoding.md R65. -/
def u16Payload (v : BitVec 16) : List Byte :=
  Machine.bePut v.toNat 2

/-- Form `u24be` of 30_encoding.md R65. The form takes counts up to 0xFFFFFF, which the meaning checks
first; of a larger count, which only `encode` of an ill-formed instruction gives, the low 24 bits are
kept. DESIGN CHOICE: log entry 20. -/
def u24Payload (p : BitVec 32) : List Byte :=
  Machine.bePut p.toNat Config.pulseBytes

/-- All 27 selectors, in the order of 30_encoding.md R66. -/
def Cmd.all : List Cmd :=
  [.readEncoder, .readPulses, .readAngle, .readAngleError, .readEnPin, .readReleaseStatus,
    .readShaftStatus] ++
  [.setCurrentLimit, .setSubdivision, .setEnableLogic, .setDirection, .setAutoScreenOff,
    .setStallProtection, .setInterpolation, .setZeroMode, .setZeroSpeed, .setZeroDirection] ++
  [.runMotor, .runPulses, .stop, .enableMotor] ++
  [.setKp, .setKi, .setKd, .setAcceleration, .setMaxTorque, .saveClear]

/-- The command an opcode byte identifies, if any (30_encoding.md R63, R67). -/
def Cmd.ofOpcode (op : Byte) : Option Cmd :=
  Cmd.all.find? fun c => Config.opcode c == op

/-- The column "format" of 30_encoding.md R66. -/
def Cmd.format : Cmd → Format
  | .readEncoder | .readPulses | .readAngle | .readAngleError | .readEnPin
  | .readReleaseStatus | .readShaftStatus | .stop => .cf0
  | .setCurrentLimit | .setSubdivision | .setEnableLogic | .setDirection | .setAutoScreenOff
  | .setStallProtection | .setInterpolation | .setZeroMode | .setZeroSpeed | .setZeroDirection
  | .runMotor | .enableMotor | .saveClear => .cf1
  | .setKp | .setKi | .setKd | .setAcceleration | .setMaxTorque => .cf2
  | .runPulses => .cf4

/-- The frame length of each format, 30_encoding.md R61. -/
def Format.length : Format → Nat
  | .cf0 => 3
  | .cf1 => 4
  | .cf2 => 5
  | .cf4 => 7

/-- The response kind of each command, 30_encoding.md R72: six typed reads, and the
acknowledgement for the other 21, `read_release_status` among them (D15, C11).
PRESUMED, unsafe: log entry 6. -/
def Cmd.kind : Cmd → RespKind
  | .readEncoder => .enc
  | .readPulses | .readAngle => .i32
  | .readAngleError => .i16
  | .readEnPin => .enPin
  | .readShaftStatus => .shaft
  | .readReleaseStatus
  | .setCurrentLimit | .setSubdivision | .setEnableLogic | .setDirection | .setAutoScreenOff
  | .setStallProtection | .setInterpolation | .setZeroMode | .setZeroSpeed | .setZeroDirection
  | .runMotor | .runPulses | .stop | .enableMotor
  | .setKp | .setKi | .setKd | .setAcceleration | .setMaxTorque | .saveClear => .ack

/-- The row of the opcode table under which bytes of a response kind are decoded. -/
def Instr.ofKind (k : RespKind) (rx : List Byte) : Instr :=
  match k with
  | .ack => .decodeAck rx
  | .enPin => .decodeEnPin rx
  | .shaft => .decodeShaft rx
  | .i16 => .decodeI16 rx
  | .i32 => .decodeI32 rx
  | .enc => .decodeEnc rx

/-- `decode(cmd, RX)`: the command context selects the response kind, 46_decoder.md R175. -/
def Instr.ofContext (c : Cmd) (rx : List Byte) : Instr :=
  Instr.ofKind c.kind rx

/-- The command selector of an instruction; the response formats have none. -/
def Instr.cmd : Instr → Option Cmd
  | .readEncoder => some .readEncoder
  | .readPulses => some .readPulses
  | .readAngle => some .readAngle
  | .readAngleError => some .readAngleError
  | .readEnPin => some .readEnPin
  | .readReleaseStatus => some .readReleaseStatus
  | .readShaftStatus => some .readShaftStatus
  | .setCurrentLimit _ => some .setCurrentLimit
  | .setSubdivision _ => some .setSubdivision
  | .setEnableLogic _ => some .setEnableLogic
  | .setDirection _ => some .setDirection
  | .setAutoScreenOff _ => some .setAutoScreenOff
  | .setStallProtection _ => some .setStallProtection
  | .setInterpolation _ => some .setInterpolation
  | .setZeroMode _ => some .setZeroMode
  | .setZeroSpeed _ => some .setZeroSpeed
  | .setZeroDirection _ => some .setZeroDirection
  | .runMotor _ _ => some .runMotor
  | .runPulses _ _ _ => some .runPulses
  | .stop => some .stop
  | .enableMotor _ => some .enableMotor
  | .setKp _ => some .setKp
  | .setKi _ => some .setKi
  | .setKd _ => some .setKd
  | .setAcceleration _ => some .setAcceleration
  | .setMaxTorque _ => some .setMaxTorque
  | .saveClear _ => some .saveClear
  | .decodeAck _ | .decodeEnPin _ | .decodeShaft _ | .decodeI16 _ | .decodeI32 _ | .decodeEnc _ =>
    none

/-- Which half of the opcode table an instruction's word belongs to. -/
def Instr.port : Instr → Port
  | .decodeAck _ => .response .ack
  | .decodeEnPin _ => .response .enPin
  | .decodeShaft _ => .response .shaft
  | .decodeI16 _ => .response .i16
  | .decodeI32 _ => .response .i32
  | .decodeEnc _ => .response .enc
  | .readEncoder | .readPulses | .readAngle | .readAngleError | .readEnPin | .readReleaseStatus
  | .readShaftStatus | .setCurrentLimit _ | .setSubdivision _ | .setEnableLogic _
  | .setDirection _ | .setAutoScreenOff _ | .setStallProtection _ | .setInterpolation _
  | .setZeroMode _ | .setZeroSpeed _ | .setZeroDirection _ | .runMotor _ _ | .runPulses _ _ _
  | .stop | .enableMotor _ | .setKp _ | .setKi _ | .setKd _ | .setAcceleration _
  | .setMaxTorque _ | .saveClear _ => .command

/-- `disable_motor()`, 30_encoding.md R76. -/
def Instr.disableMotor : Instr := .enableMotor false

/-- `save_params()`, 30_encoding.md R76. -/
def Instr.saveParams : Instr := .saveClear .save

/-- `clear_params()`, 30_encoding.md R76. -/
def Instr.clearParams : Instr := .saveClear .clear

/-- `run_cw(speed)`, 30_encoding.md R76. -/
def Instr.runCw (speed : BitVec 8) : Instr := .runMotor .clockwise speed

/-- `run_ccw(speed)`, 30_encoding.md R76. -/
def Instr.runCcw (speed : BitVec 8) : Instr := .runMotor .counterClockwise speed

end Sys2Proof
end

