-- ==== Sys2Proof/WellFormed.lean ====
section
/-!
DEFINITION. When an instruction has an encoding: every checked operand lies in its legal range
(30_encoding.md R65, column "check before encoding"). An ill-formed command can still be presented;
it returns the error of 60_exceptions.md R201. A response format takes bytes of any length.
-/

namespace Sys2Proof

/-- The argument checks of the command rules R130, R131, R138, R150, R151 and R164. -/
def Instr.wellFormed : Instr → Bool
  | .setCurrentLimit idx => decide (idx.toNat ≤ Config.currentMax)
  | .setSubdivision sub => decide (Config.subdivMin ≤ sub.toNat ∧ sub.toNat ≤ Config.subdivMax)
  | .setZeroSpeed v => decide (v.toNat ≤ Config.zeroSpeedMax)
  | .runMotor _ speed => decide (speed.toNat ≤ Config.speedMax)
  | .runPulses _ speed pulses =>
    decide (speed.toNat ≤ Config.speedMax ∧ pulses.toNat ≤ Config.pulseMax)
  | .setMaxTorque v => decide (v.toNat ≤ Config.torqueMax)
  | .readEncoder | .readPulses | .readAngle | .readAngleError | .readEnPin
  | .readReleaseStatus | .readShaftStatus | .setEnableLogic _ | .setDirection _
  | .setAutoScreenOff _ | .setStallProtection _ | .setInterpolation _ | .setZeroMode _
  | .setZeroDirection _ | .stop | .enableMotor _ | .setKp _ | .setKi _ | .setKd _
  | .setAcceleration _ | .saveClear _ => true
  | .decodeAck _ | .decodeEnPin _ | .decodeShaft _ | .decodeI16 _ | .decodeI32 _
  | .decodeEnc _ => true

abbrev Instr.WellFormed (i : Instr) : Prop := i.wellFormed = true

end Sys2Proof
end

