-- ==== Sys2Proof/Decode.lean ====
section
/-!
DEFINITION. From the words of the opcode table to instructions and back. The codec itself never
parses a command frame (30_encoding.md R77, 90_conflicts.md C5): this is the model's boundary, where
bytes become an instruction or are refused by name (60_exceptions.md R222), by the read-back of
30_encoding.md R78. A command is told by opcode and length together (R77); the address and the
checksum are no operands (R62, R64), so `decode` does not examine them, and `readBack` accepts a
frame only if the codec could emit it (R60, R68). DESIGN CHOICE: log entry 10.
-/

namespace Sys2Proof

/-- An instruction whose operands must be legal (30_encoding.md R68 d). -/
def legal (i : Instr) : Except DecodeError Instr :=
  if i.wellFormed then .ok i else .error .operand

/-- The payload of a CF0 command is empty. -/
def noPayload (i : Instr) : List Byte → Except DecodeError Instr
  | [] => .ok i
  | _ => .error .length

/-- The payload of a CF1 command is one byte of its operand form. -/
def onePayload {α : Type} (ofByte : Byte → Option α) (f : α → Instr) :
    List Byte → Except DecodeError Instr
  | [b] =>
    match ofByte b with
    | some x => legal (f x)
    | none => .error .operand
  | _ => .error .length

/-- The payload of a CF2 command is a 16-bit value, high byte first. -/
def twoPayload (f : BitVec 16 → Instr) : List Byte → Except DecodeError Instr
  | [h, l] => legal (f (BitVec.ofNat 16 (Machine.beGetU [h, l])))
  | _ => .error .length

/-- The payload of `run_pulses`, format CF4. -/
def pulsesPayload : List Byte → Except DecodeError Instr
  | [ds, p2, p1, p0] =>
    legal (.runPulses (dsDirection ds) (dsSpeed ds)
      (BitVec.ofNat 32 (Machine.beGetU [p2, p1, p0])))
  | _ => .error .length

/-- The arguments a command's payload reads back as, 30_encoding.md R78. -/
def decodePayload : Cmd → List Byte → Except DecodeError Instr
  | .readEncoder => noPayload .readEncoder
  | .readPulses => noPayload .readPulses
  | .readAngle => noPayload .readAngle
  | .readAngleError => noPayload .readAngleError
  | .readEnPin => noPayload .readEnPin
  | .readReleaseStatus => noPayload .readReleaseStatus
  | .readShaftStatus => noPayload .readShaftStatus
  | .setCurrentLimit => onePayload some .setCurrentLimit
  | .setSubdivision => onePayload (fun b => some (subOfByte b)) .setSubdivision
  | .setEnableLogic => onePayload EnableLogic.ofByte .setEnableLogic
  | .setDirection => onePayload Direction.ofByte .setDirection
  | .setAutoScreenOff => onePayload boolOfByte .setAutoScreenOff
  | .setStallProtection => onePayload boolOfByte .setStallProtection
  | .setInterpolation => onePayload boolOfByte .setInterpolation
  | .setZeroMode => onePayload ZeroMode.ofByte .setZeroMode
  | .setZeroSpeed => onePayload some .setZeroSpeed
  | .setZeroDirection => onePayload Direction.ofByte .setZeroDirection
  | .runMotor => onePayload some (fun b => .runMotor (dsDirection b) (dsSpeed b))
  | .runPulses => pulsesPayload
  | .stop => noPayload .stop
  | .enableMotor => onePayload boolOfByte .enableMotor
  | .setKp => twoPayload .setKp
  | .setKi => twoPayload .setKi
  | .setKd => twoPayload .setKd
  | .setAcceleration => twoPayload .setAcceleration
  | .setMaxTorque => twoPayload .setMaxTorque
  | .saveClear => onePayload SaveClear.ofByte .saveClear

/-- A command frame: address, opcode, payload, checksum (30_encoding.md R60). -/
def decodeCommand : List Byte → Except DecodeError Instr
  | _ :: op :: b :: rest =>
    match Cmd.ofOpcode op with
    | some c => decodePayload c (b :: rest).dropLast
    | none => .error .opcode
  | _ => .error .length

/-- The decoder, total on any bytes: a command frame by its opcode and length, received bytes by the
response kind their context gives. -/
def decode : Port → List Byte → Except DecodeError Instr
  | .command, bytes => decodeCommand bytes
  | .response k, rx => .ok (Instr.ofKind k rx)

/-- The strict read-back: the frame's checksum must hold, its address be a device's, and its payload
be one the command can carry (30_encoding.md R60, R68, R78). -/
def readBack (bytes : List Byte) : Except DecodeError Instr :=
  if Machine.frameValid bytes then
    if bytes.head?.any addrValid then decodeCommand bytes else .error .address
  else .error .checksum

/-- The payload of a command frame by the operand forms of 30_encoding.md R61 and R65. The forms take
legal operands; what this gives for an ill-formed instruction, which has no encoding, is the model's
own. DESIGN CHOICE: log entry 20. -/
def Instr.payload : Instr → List Byte
  | .setCurrentLimit idx => [idx]
  | .setSubdivision sub => [subToByte sub]
  | .setEnableLogic e => [e.toByte]
  | .setDirection d => [d.toByte]
  | .setAutoScreenOff b => [boolToByte b]
  | .setStallProtection b => [boolToByte b]
  | .setInterpolation b => [boolToByte b]
  | .setZeroMode z => [z.toByte]
  | .setZeroSpeed v => [v]
  | .setZeroDirection d => [d.toByte]
  | .runMotor d speed => [packDs d speed]
  | .runPulses d speed pulses => packDs d speed :: u24Payload pulses
  | .enableMotor b => [boolToByte b]
  | .setKp v => u16Payload v
  | .setKi v => u16Payload v
  | .setKd v => u16Payload v
  | .setAcceleration v => u16Payload v
  | .setMaxTorque v => u16Payload v
  | .saveClear c => [c.toByte]
  | .readEncoder | .readPulses | .readAngle | .readAngleError | .readEnPin | .readReleaseStatus
  | .readShaftStatus | .stop => []
  | .decodeAck rx | .decodeEnPin rx | .decodeShaft rx | .decodeI16 rx | .decodeI32 rx
  | .decodeEnc rx => rx

/-- The encoder: the frame of a well-formed command at device address `a`; the received bytes
themselves for a response format. An ill-formed command has no frame (30_encoding.md R68): log
entry 20. -/
def encode (a : Byte) (i : Instr) : List Byte :=
  match i.cmd with
  | some c => Machine.frameOf a (Config.opcode c) i.payload
  | none => i.payload

/-- A command row of the opcode table matches: length and opcode byte together (30_encoding.md R77). -/
def isCommandWord : List Byte → Bool
  | a :: op :: rest =>
    match Cmd.ofOpcode op with
    | some c => c.format.length == (a :: op :: rest).length
    | none => false
  | _ => false

/-- The row of the opcode table a word without context is read by. Every word of a response row's
length matches that row (R71, R77), so a word that no command row matches is a response of the first
kind, in table order, that has its length. DESIGN CHOICE: log entry 10. -/
def rowPort (bytes : List Byte) : Port :=
  if isCommandWord bytes then .command
  else
    match [RespKind.ack, .enPin, .shaft, .i16, .i32, .enc].find? fun k =>
        Config.responseLength k == bytes.length with
    | some k => .response k
    | none => .command

/-- The bytes of a table word: the frame read as one big-endian number (30_encoding.md R77), so the
first byte is the most significant. A number that does not fit `nbits` bits, or a word that is not
whole bytes, is refused and never mapped onto another word (40_primitives.md R94, 60_exceptions.md
R222). DESIGN CHOICE: log entry 10. -/
def wordBytes (nbits w : Nat) : Except DecodeError (List Byte) :=
  if nbits % 8 = 0 ∧ w < 2 ^ nbits then .ok (Machine.bePut w (nbits / 8)) else .error .width

/-- The instruction of a word numbered as the opcode table numbers it, or why there is none. -/
def decodeWord (nbits w : Nat) : Except DecodeError Instr :=
  match wordBytes nbits w with
  | .ok bytes => decode (rowPort bytes) bytes
  | .error why => .error why

/-- The instruction the decoder reads from a word numbered as the opcode table numbers it. -/
def decodeTableWord (nbits w : Nat) : Option Instr :=
  (decodeWord nbits w).toOption

end Sys2Proof
end

