-- ==== Sys2Proof/Machine/Memory.lean ====
section
/-!
DEFINITION. The scratch buffer's storage (10_state.md R22, 20_memory.md R44): a canonical list of
(index, byte) cells. Indices rise strictly, none lies outside `BUF[0..9]`, and no cell holds the
byte an unlisted index reads as, so equal buffers are equal lists. Log entry 15.
-/

namespace Sys2Proof.Machine

abbrev Memory := List Host.Cell

/-- What an index that is not listed reads as: the reset content of `BUF`, 10_state.md R34. -/
def Memory.unlisted : Byte := Config.fillByte

/-- The byte at an index, `x[i]` of 00_scope.md R7. -/
def Memory.read : Memory → Nat → Byte
  | [], _ => Memory.unlisted
  | c :: m, a => if c.1 = a then c.2 else Memory.read m a

/-- Put a cell in front of the first cell of a higher index. -/
def Memory.putCell : Memory → Nat → Byte → Memory
  | [], a, v => [(a, v)]
  | c :: m, a, v => if a < c.1 then (a, v) :: c :: m else c :: Memory.putCell m a v

/-- Write one byte, `x[i] <- v` of 00_scope.md R7; nothing else changes (20_memory.md R53). -/
def Memory.write (m : Memory) (a : Nat) (v : Byte) : Memory :=
  if v = Memory.unlisted then m.filter fun c => c.1 ≠ a
  else Memory.putCell (m.filter fun c => c.1 ≠ a) a v

/-- Write consecutive bytes from index `a` upward. -/
def Memory.writeAll : Memory → Nat → List Byte → Memory
  | m, _, [] => m
  | m, a, b :: bs => Memory.writeAll (Memory.write m a b) (a + 1) bs

/-- The `n` bytes from index `a` upward, `BUF[a .. a+n)`. -/
def Memory.readAll (m : Memory) (a : Nat) : Nat → List Byte
  | 0 => []
  | n + 1 => Memory.read m a :: Memory.readAll m (a + 1) n

/-- `MemWrite(a, n, v)` of 00_scope.md R7: big-endian store into the scratch buffer. -/
def memWrite (m : Memory) (a n v : Nat) : Memory :=
  Memory.writeAll m a (bePut v n)

/-- The canonical form. -/
abbrev Memory.wf (m : Memory) : Prop :=
  m.Pairwise (fun c d => c.1 < d.1) ∧ ∀ c ∈ m, c.1 < Config.bufCap ∧ c.2 ≠ Memory.unlisted

end Sys2Proof.Machine
end

