-- ==== Sys2Proof/Machine/State.lean ====
section
/-!
DEFINITION. The whole state of the codec (10_state.md R20: `ADDR`, `BUF`, `LEN`), the host's side of
its interface (70_reset_and_hazards.md R239, R240), and the reasons a step can stop.
-/

namespace Sys2Proof.Machine

/-- One operation the host presents (70_reset_and_hazards.md R239). -/
inductive Request where
  /-- `reset()`, R230. -/
  | reset
  /-- `set_address(a)`, 40_primitives.md R107. -/
  | setAddress (a : Byte)
  /-- An instruction with typed operands: `encode(cmd, args)`, or a decode under one kind. -/
  | op (i : Instr)
  /-- `decode(cmd, RX)`: a command context and the received bytes, 46_decoder.md R175. -/
  | decode (c : Cmd) (rx : List Byte)
  /-- Bytes to be read as an instruction of one half of the opcode table, at the model's boundary
  (60_exceptions.md R222; log entry 10). -/
  | words (p : Port) (bytes : List Byte)
  /-- A word of the opcode table as the number 30_encoding.md R77 reads it as, with its width in
  bits (60_exceptions.md R222; log entry 10). -/
  | tableWord (nbits w : Nat)
  deriving DecidableEq, Repr

/-- What stops the machine. The codec itself has no trap (60_exceptions.md R200). -/
inductive Fault where
  /-- Raised by the frame builder alone, for a payload above `PAYLOAD_MAX`, which 20_memory.md R51
  says it refuses by construction. No instruction reaches it. Safe: log entry 13. -/
  | payloadTooLong
  deriving DecidableEq, Repr

/-- What the model does not run. -/
inductive Refusal where
  /-- Raised by `exec` for an instruction without a meaning: none is left. Safe. -/
  | notModelled (mnemonic : String)
  /-- Raised by `runDecoded`, for `serve`, on words that are no instruction: they cannot be presented to the codec
  (60_exceptions.md R222, 30_encoding.md R69). Safe: log entry 10. -/
  | undecodable (why : DecodeError)
  deriving DecidableEq, Repr

/-- The codec's registers and buffer, then the host's stream of operations and of results. -/
structure State where
  /-- `ADDR`, 10_state.md R21: the device address. -/
  addr : Byte
  /-- `BUF[0..9]`, 10_state.md R22: the scratch buffer. -/
  buf : Memory
  /-- `LEN`, 10_state.md R23: the length of the frame last built, 0 to 10. -/
  len : Fin 11
  /-- The operations presented and not yet taken, oldest first (20_memory.md R46; log entry 8). -/
  pending : List Request
  /-- The results returned so far, oldest first (70_reset_and_hazards.md R240; log entry 8). -/
  results : List Result
  deriving DecidableEq, Repr

/-- The codec after `reset`, 10_state.md R34; the host has presented nothing yet. -/
def State.reset : State where
  addr := Config.addrReset
  buf := []
  len := 0
  pending := []
  results := []

end Sys2Proof.Machine
end

