-- ==== Sys2Proof/Machine/Ops.lean ====
section
/-!
DEFINITION. The operations every meaning is made of: ending with a result, raising an error, the
frame builder, the parser's common checks. The codec has no flags (10_state.md R27).
-/

namespace Sys2Proof.Machine

abbrev Out := Host.Outcome State Fault Refusal

/-- `ADDR <- v`. -/
def State.withAddr (s : State) (a : Byte) : State := { s with addr := a }

/-- Taking operations from the host's stream: `rest` is left. -/
def State.withPending (s : State) (rest : List Request) : State := { s with pending := rest }

/-- The host gets a result. -/
def State.record (s : State) (r : Result) : State := { s with results := s.results ++ [r] }

/-- `BUF` and `LEN` at their reset values, 10_state.md R34. -/
def State.clearFrame (s : State) : State := { s with buf := [], len := 0 }

/-- A frame in the scratch buffer: all ten bytes and `LEN` are written, the tail with the fill byte
(10_state.md R24, D5). The builder has checked that the frame fits. -/
def State.putFrame (s : State) (frame : List Byte) : State :=
  { s with
    buf := s.buf.writeAll 0
      (frame ++ List.replicate (Config.bufCap - frame.length) Config.fillByte)
    len := Fin.ofNat 11 frame.length }

/-- The frame the host sees: `BUF[0..LEN)`, 10_state.md R23, 20_memory.md R52. -/
def State.view (s : State) : List Byte :=
  s.buf.readAll 0 s.len.val

/-- The host presents one more operation, 70_reset_and_hazards.md R239. -/
def State.present (s : State) (r : Request) : State := { s with pending := s.pending ++ [r] }

/-- `new(a)`, 30_encoding.md R76: construction with an address. -/
def Request.new (a : Byte) : List Request := [.reset, .setAddress a]

/-- The operation ends with its one result; it always completes (60_exceptions.md R200). -/
def finish (r : Result) (s : State) : Out := .next (s.record r)

/-- `return Ok(v)`. -/
def answer (v : Value) (s : State) : Out := finish (.ok v) s

/-- `raise E`, the codec's only "exception entry" (60_exceptions.md R212): the operation ends with
`Err(E)`, `ADDR`, `BUF` and `LEN` stay as they were, nothing is saved and control goes nowhere. There
is nothing to return from, to acknowledge or to clear (R213): the next operation is simply taken. -/
def raise (e : Err) (s : State) : Out := finish (.err e) s

/-- The codes of 60_exceptions.md R201 (D13). DESIGN CHOICE of the spec: log entry 7. -/
def errCode : Err → Nat
  | .invalidAddress => 1
  | .invalidSpeed => 2
  | .invalidCurrentLimit => 3
  | .invalidSubdivision => 4
  | .invalidTorque => 5
  | .invalidPulseCount => 6
  | .invalidPacket => 7
  | .invalidResponse => 8
  | .deviceReportedFailure => 9

/-- The code of a result: 0 is reserved for "no error", 60_exceptions.md R201. -/
def resultCode : Result → Nat
  | .ok _ => 0
  | .err e => errCode e

/-- `build_frame(op, payload)`, 40_primitives.md R105, the last step of every `encode`. -/
def buildFrame (op : Byte) (payload : List Byte) (s : State) : Out :=
  if Config.payloadMax < payload.length then .fault .payloadTooLong
  else if addrValid s.addr then
    answer (.frame (s.putFrame (frameOf s.addr op payload)).view)
      (s.putFrame (frameOf s.addr op payload))
  else raise .invalidAddress s

/-- The common checks of the parser, 46_decoder.md R176, R177, R178: at least `n` bytes, and the
first `n` of them are a valid frame. Bytes from index `n` on are not read. -/
def packetOk (n : Nat) (rx : List Byte) : Bool :=
  decide (n ≤ rx.length) && frameValid (rx.take n)

/-- `decode` of one kind, 46_decoder.md R175, R186: the common checks, then the interpretation. -/
def parse (k : RespKind) (interpret : List Byte → Result) (rx : List Byte) : Result :=
  if packetOk (Config.responseLength k) rx then interpret rx else .err .invalidPacket

/-- The status byte `RX[1]`. -/
def statusByte (rx : List Byte) : Byte := BitVec.ofNat 8 (memRead rx 1 1)

/-- 46_decoder.md R180. -/
def ackResult (rx : List Byte) : Result :=
  match AckStatus.ofByte (statusByte rx) with
  | some .success => .ok .ack
  | some .failure => .err .deviceReportedFailure
  | none => .err .invalidResponse

/-- 46_decoder.md R184. -/
def enPinResult (rx : List Byte) : Result :=
  match EnPinStatus.ofByte (statusByte rx) with
  | some st => .ok (.enPin st)
  | none => .err .invalidResponse

/-- 46_decoder.md R185. -/
def shaftResult (rx : List Byte) : Result :=
  match ShaftStatus.ofByte (statusByte rx) with
  | some st => .ok (.shaft st)
  | none => .err .invalidResponse

/-- 46_decoder.md R183. -/
def i16Result (rx : List Byte) : Result :=
  .ok (.int16 (beGetS (slice rx 1 3)))

/-- 46_decoder.md R182. -/
def i32Result (rx : List Byte) : Result :=
  .ok (.int32 (beGetS (slice rx 1 5)))

/-- 46_decoder.md R181: carry and value are decoded independently (40_primitives.md R97) and never
combined. -/
def encResult (rx : List Byte) : Result :=
  .ok (.encoder (beGetS (slice rx 1 5)) (memRead rx 5 2))

end Sys2Proof.Machine
end

