-- ==== Sys2Proof/Machine/Control.lean ====
section
/-!
DEFINITION. The two operations without a wire encoding: `reset` (70_reset_and_hazards.md R230) and
`set_address` (40_primitives.md R107).
-/

namespace Sys2Proof.Machine

/-- `reset()`, R230: it cannot fail. The host's own stream of operations and results goes on. -/
def execReset (s : State) : Out :=
  answer .unit (s.clearFrame.withAddr Config.addrReset)

/-- `set_address(a)`, R107: an invalid address is refused and the old one stays; `BUF` and `LEN`
are untouched. -/
def execSetAddress (a : Byte) (s : State) : Out :=
  if addrValid a then answer .unit (s.withAddr a) else raise .invalidAddress s

end Sys2Proof.Machine
end

