-- ==== Sys2Proof/Machine/Configure.lean ====
section
/-!
DEFINITION. The configuration commands, 42_config.md: one payload byte, the argument checked before
anything is written.
-/

namespace Sys2Proof.Machine

/-- R130. -/
def execSetCurrentLimit (idx : BitVec 8) (s : State) : Out :=
  if Config.currentMax < idx.toNat then raise .invalidCurrentLimit s
  else buildFrame (Config.opcode .setCurrentLimit) [idx] s

/-- R131. -/
def execSetSubdivision (sub : BitVec 16) (s : State) : Out :=
  if sub.toNat < Config.subdivMin ∨ Config.subdivMax < sub.toNat then raise .invalidSubdivision s
  else buildFrame (Config.opcode .setSubdivision) [subToByte sub] s

/-- R132. -/
def execSetEnableLogic (e : EnableLogic) (s : State) : Out :=
  buildFrame (Config.opcode .setEnableLogic) [e.toByte] s

/-- R133: a whole payload byte, not the bit of `run_motor`. -/
def execSetDirection (d : Direction) (s : State) : Out :=
  buildFrame (Config.opcode .setDirection) [d.toByte] s

/-- R134. -/
def execSetAutoScreenOff (b : Bool) (s : State) : Out :=
  buildFrame (Config.opcode .setAutoScreenOff) [boolToByte b] s

/-- R135. -/
def execSetStallProtection (b : Bool) (s : State) : Out :=
  buildFrame (Config.opcode .setStallProtection) [boolToByte b] s

/-- R136. -/
def execSetInterpolation (b : Bool) (s : State) : Out :=
  buildFrame (Config.opcode .setInterpolation) [boolToByte b] s

/-- R137. -/
def execSetZeroMode (z : ZeroMode) (s : State) : Out :=
  buildFrame (Config.opcode .setZeroMode) [z.toByte] s

/-- R138: the error is the member of the set that names a speed (D12). -/
def execSetZeroSpeed (v : BitVec 8) (s : State) : Out :=
  if Config.zeroSpeedMax < v.toNat then raise .invalidSpeed s
  else buildFrame (Config.opcode .setZeroSpeed) [v] s

/-- R139. -/
def execSetZeroDirection (d : Direction) (s : State) : Out :=
  buildFrame (Config.opcode .setZeroDirection) [d.toByte] s

end Sys2Proof.Machine
end

