-- ==== Sys2Proof/Machine/Motion.lean ====
section
/-!
DEFINITION. The motion commands, 43_motion.md: the direction is a bit of the speed byte, arguments
are checked in operand order (60_exceptions.md R211).
-/

namespace Sys2Proof.Machine

/-- R150. A speed with bit 7 set is an error whatever the direction (93 U1), never masked. -/
def execRunMotor (d : Direction) (speed : BitVec 8) (s : State) : Out :=
  if Config.speedMax < speed.toNat then raise .invalidSpeed s
  else buildFrame (Config.opcode .runMotor) [packDs d speed] s

/-- R151. -/
def execRunPulses (d : Direction) (speed : BitVec 8) (pulses : BitVec 32) (s : State) : Out :=
  if Config.speedMax < speed.toNat then raise .invalidSpeed s
  else if Config.pulseMax < pulses.toNat then raise .invalidPulseCount s
  else buildFrame (Config.opcode .runPulses) (packDs d speed :: u24Payload pulses) s

/-- R152. -/
def execStop (s : State) : Out := buildFrame (Config.opcode .stop) [] s

/-- R153. -/
def execEnableMotor (b : Bool) (s : State) : Out :=
  buildFrame (Config.opcode .enableMotor) [boolToByte b] s

end Sys2Proof.Machine
end

