-- ==== Sys2Proof/Machine/Read.lean ====
section
/-!
DEFINITION. The read commands, 41_read.md: a frame with no payload. No argument, hence no error but
the builder's.
-/

namespace Sys2Proof.Machine

/-- R120. -/
def execReadEncoder (s : State) : Out := buildFrame (Config.opcode .readEncoder) [] s

/-- R121. -/
def execReadPulses (s : State) : Out := buildFrame (Config.opcode .readPulses) [] s

/-- R122. -/
def execReadAngle (s : State) : Out := buildFrame (Config.opcode .readAngle) [] s

/-- R123. -/
def execReadAngleError (s : State) : Out := buildFrame (Config.opcode .readAngleError) [] s

/-- R124. -/
def execReadEnPin (s : State) : Out := buildFrame (Config.opcode .readEnPin) [] s

/-- R125. -/
def execReadReleaseStatus (s : State) : Out := buildFrame (Config.opcode .readReleaseStatus) [] s

/-- R126. -/
def execReadShaftStatus (s : State) : Out := buildFrame (Config.opcode .readShaftStatus) [] s

end Sys2Proof.Machine
end

