-- ==== Sys2Proof/Machine/Response.lean ====
section
/-!
DEFINITION. The response-frame parser, 46_decoder.md, one meaning for each response kind. It reads
the received bytes and nothing else, and writes no state but the result (10_state.md R32).
-/

namespace Sys2Proof.Machine

/-- R180. -/
def execDecodeAck (rx : List Byte) (s : State) : Out := finish (parse .ack ackResult rx) s

/-- R184. -/
def execDecodeEnPin (rx : List Byte) (s : State) : Out := finish (parse .enPin enPinResult rx) s

/-- R185. -/
def execDecodeShaft (rx : List Byte) (s : State) : Out := finish (parse .shaft shaftResult rx) s

/-- R183. -/
def execDecodeI16 (rx : List Byte) (s : State) : Out := finish (parse .i16 i16Result rx) s

/-- R182. -/
def execDecodeI32 (rx : List Byte) (s : State) : Out := finish (parse .i32 i32Result rx) s

/-- R181. -/
def execDecodeEnc (rx : List Byte) (s : State) : Out := finish (parse .enc encResult rx) s

end Sys2Proof.Machine
end

