-- ==== Sys2Proof/Machine/SaveClear.lean ====
section
/-!
DEFINITION. The save/clear command, 45_save_clear.md: one of two sentinel bytes.
-/

namespace Sys2Proof.Machine

/-- R170. -/
def execSaveClear (c : SaveClear) (s : State) : Out :=
  buildFrame (Config.opcode .saveClear) [c.toByte] s

end Sys2Proof.Machine
end

