-- ==== Sys2Proof/Machine/Tuning.lean ====
section
/-!
DEFINITION. The tuning commands, 44_tuning.md: a 16-bit value, high byte first. Only the torque has
a declared maximum; for the other four `TUNE_MAX` is the port's whole range (D11).
-/

namespace Sys2Proof.Machine

/-- R160. -/
def execSetKp (v : BitVec 16) (s : State) : Out :=
  buildFrame (Config.opcode .setKp) (u16Payload v) s

/-- R161. -/
def execSetKi (v : BitVec 16) (s : State) : Out :=
  buildFrame (Config.opcode .setKi) (u16Payload v) s

/-- R162. -/
def execSetKd (v : BitVec 16) (s : State) : Out :=
  buildFrame (Config.opcode .setKd) (u16Payload v) s

/-- R163. -/
def execSetAcceleration (v : BitVec 16) (s : State) : Out :=
  buildFrame (Config.opcode .setAcceleration) (u16Payload v) s

/-- R164: the cap's error is `InvalidTorque` (C7). -/
def execSetMaxTorque (v : BitVec 16) (s : State) : Out :=
  if Config.torqueMax < v.toNat then raise .invalidTorque s
  else buildFrame (Config.opcode .setMaxTorque) (u16Payload v) s

end Sys2Proof.Machine
end

