-- ==== Sys2Proof/Machine/Dispatch.lean ====
section
/-!
DEFINITION. One arm for each row of spec/opcode_table.json.
-/

namespace Sys2Proof.Machine

def exec (i : Instr) (s : State) : Host.Outcome State Fault Refusal :=
  match i with
  | .readEncoder => Sys2Proof.Machine.execReadEncoder s
  | .readPulses => Sys2Proof.Machine.execReadPulses s
  | .readAngle => Sys2Proof.Machine.execReadAngle s
  | .readAngleError => Sys2Proof.Machine.execReadAngleError s
  | .readEnPin => Sys2Proof.Machine.execReadEnPin s
  | .readReleaseStatus => Sys2Proof.Machine.execReadReleaseStatus s
  | .readShaftStatus => Sys2Proof.Machine.execReadShaftStatus s
  | .setCurrentLimit idx => Sys2Proof.Machine.execSetCurrentLimit idx s
  | .setSubdivision sub => Sys2Proof.Machine.execSetSubdivision sub s
  | .setEnableLogic e => Sys2Proof.Machine.execSetEnableLogic e s
  | .setDirection d => Sys2Proof.Machine.execSetDirection d s
  | .setAutoScreenOff b => Sys2Proof.Machine.execSetAutoScreenOff b s
  | .setStallProtection b => Sys2Proof.Machine.execSetStallProtection b s
  | .setInterpolation b => Sys2Proof.Machine.execSetInterpolation b s
  | .setZeroMode z => Sys2Proof.Machine.execSetZeroMode z s
  | .setZeroSpeed v => Sys2Proof.Machine.execSetZeroSpeed v s
  | .setZeroDirection d => Sys2Proof.Machine.execSetZeroDirection d s
  | .runMotor d speed => Sys2Proof.Machine.execRunMotor d speed s
  | .runPulses d speed pulses => Sys2Proof.Machine.execRunPulses d speed pulses s
  | .stop => Sys2Proof.Machine.execStop s
  | .enableMotor b => Sys2Proof.Machine.execEnableMotor b s
  | .setKp v => Sys2Proof.Machine.execSetKp v s
  | .setKi v => Sys2Proof.Machine.execSetKi v s
  | .setKd v => Sys2Proof.Machine.execSetKd v s
  | .setAcceleration v => Sys2Proof.Machine.execSetAcceleration v s
  | .setMaxTorque v => Sys2Proof.Machine.execSetMaxTorque v s
  | .saveClear c => Sys2Proof.Machine.execSaveClear c s
  | .decodeAck rx => Sys2Proof.Machine.execDecodeAck rx s
  | .decodeEnPin rx => Sys2Proof.Machine.execDecodeEnPin rx s
  | .decodeShaft rx => Sys2Proof.Machine.execDecodeShaft rx s
  | .decodeI16 rx => Sys2Proof.Machine.execDecodeI16 rx s
  | .decodeI32 rx => Sys2Proof.Machine.execDecodeI32 rx s
  | .decodeEnc rx => Sys2Proof.Machine.execDecodeEnc rx s

end Sys2Proof.Machine
end

