-- ==== Sys2Proof/Machine/Serve.lean ====
section
/-!
DEFINITION. What the codec does with one operation of the host (70_reset_and_hazards.md R239).
-/

namespace Sys2Proof.Machine

/-- What was read at the model's boundary runs if it is an instruction and is refused by name if it
is none (60_exceptions.md R222). -/
def runDecoded (d : Except DecodeError Instr) (s : State) : Out :=
  match d with
  | .ok i => exec i s
  | .error why => .refused (.undecodable why)

/-- Take one operation. The context of a `decode` selects its kind (46_decoder.md R175); words that
are no instruction cannot be presented and are refused by name (60_exceptions.md R222). -/
def serve (r : Request) (s : State) : Out :=
  match r with
  | .reset => execReset s
  | .setAddress a => execSetAddress a s
  | .op i => exec i s
  | .decode c rx => exec (Instr.ofContext c rx) s
  | .words p bytes => runDecoded (decode p bytes) s
  | .tableWord nbits w => runDecoded (decodeWord nbits w) s

/-- The host presents a word of the opcode table as the very next operation (log entry 9). -/
def fetchNext (s : State) (nbits w : Nat) : State :=
  s.withPending (.tableWord nbits w :: s.pending)

end Sys2Proof.Machine
end

