-- ==== Sys2Proof/Machine/Step.lean ====
section
/-!
DEFINITION. One step: the codec takes the oldest operation the host has presented and completes it
(20_memory.md R46). With none it is idle and nothing changes; it never halts (10_state.md R26,
70_reset_and_hazards.md R240).
-/

namespace Sys2Proof.Machine

def step (s : State) : Host.Outcome State Fault Refusal :=
  match s.pending with
  | [] => .next s
  | r :: rest => serve r (s.withPending rest)

/-- The state whose next step runs the instruction of the table word `w`. -/
def State.withFetchWord (s : State) (nbits w : Nat) : State :=
  fetchNext s nbits w

end Sys2Proof.Machine
end

