-- ==== Sys2Proof/Safety.lean ====
section
/-!
DEFINITION. What claims about the codec are stated in: the state a successful `encode` leaves, the
state an error leaves, and the invariant of every reachable state.
-/

namespace Sys2Proof.Safety

open Sys2Proof.Machine

/-- `t` is `s` after a successful `encode` that returned `frame`: `BUF` and `LEN` hold exactly that
frame, the tail the fill byte, the frame is the one result, and nothing else has changed
(10_state.md R22, R23, R24; 40_primitives.md R105). -/
structure Emits (s : State) (frame : List Byte) (t : State) : Prop where
  addr : t.addr = s.addr
  pending : t.pending = s.pending
  results : t.results = s.results ++ [.ok (.frame frame)]
  len : t.len.val = frame.length
  view : t.view = frame
  inside : ∀ i, i < Config.bufCap → t.buf.read i = frame.getD i Config.fillByte
  outside : ∀ i, Config.bufCap ≤ i → t.buf.read i = s.buf.read i

/-- The instruction completes with its frame. -/
def Encodes (i : Instr) (s : State) (frame : List Byte) : Prop :=
  ∃ t, exec i s = .next t ∧ Emits s frame t

/-- The instruction completes with a result and changes nothing else. -/
def Returns (i : Instr) (s : State) (r : Result) : Prop :=
  exec i s = .next { s with results := s.results ++ [r] }

/-- 10_state.md R24, the invariant of `BUF` and `LEN`: no frame yet, or one whole frame. -/
def FrameInv (s : State) : Prop :=
  (s.len.val = 0 ∧ ∀ i, i < Config.bufCap → s.buf.read i = Config.fillByte) ∨
  ((s.len.val = 3 ∨ s.len.val = 4 ∨ s.len.val = 5 ∨ s.len.val = 7) ∧
    s.buf.read (s.len.val - 1) = chk8 (s.buf.readAll 0 (s.len.val - 1)) ∧
    (∀ i, s.len.val ≤ i → i < Config.bufCap → s.buf.read i = Config.fillByte) ∧
    addrValid (s.buf.read 0) = true)

/-- What holds in every state reachable from reset: the stored address is a device's (10_state.md
R28), the buffer's cells are in canonical form, and R24. -/
structure CodecInv (s : State) : Prop where
  addr : addrValid s.addr = true
  mem : Memory.wf s.buf
  frame : FrameInv s

end Sys2Proof.Safety
end

