-- ==== Sys2Proof/Certificates/Slice0/Obligations.lean ====
section
/-!
DEFINITION. The statements for the provers. `Encodes i s f` (Safety.lean) says that `exec i s`
answers a next state that differs from `s` by the frame `f` in `BUF` and `LEN` and by the result
`Ok(f)` alone; `Returns i s r` that it answers `s` with the result `r` and nothing else changed. Both
are completion and frame in one. What `Emits` says of the bytes behind the frame is the spec's
decision D5, not the source's: log entry 4.
-/

open Sys2Proof Sys2Proof.Machine Sys2Proof.Safety

/-! Function blocks -/

/-- 40_primitives.md R90 and its laws R91. -/
def Obligations.ChecksumLaws : Prop :=
  ∀ s t : List Byte,
    chk8 [] = 0x00#8 ∧
    (chk8 s).toNat = (s.map BitVec.toNat).sum % 256 ∧
    (∀ b, chk8 (s ++ [b]) = chk8 s + b) ∧
    chk8 (s ++ t) = chk8 s + chk8 t ∧
    (s.Perm t → chk8 s = chk8 t) ∧
    chk8 (s ++ [chk8 s]) = chk8 s + chk8 s ∧
    ∀ m : Nat, (chk8 (List.replicate m 0xFF#8)).toNat = (256 - m % 256) % 256

/-- 40_primitives.md R91: one changed byte is always seen, two opposite changes never are. -/
def Obligations.ChecksumSeesOneChangedByte : Prop :=
  (∀ (p q : List Byte) (b c : Byte), b ≠ c → chk8 (p ++ b :: q) ≠ chk8 (p ++ c :: q)) ∧
  ∀ (p q r : List Byte) (b c d : Byte),
    chk8 (p ++ b :: (q ++ c :: r)) = chk8 (p ++ (b + d) :: (q ++ (c - d) :: r))

/-- 40_primitives.md R93. -/
def Obligations.FrameValidIffLastByteIsChecksum : Prop :=
  ∀ s : List Byte, frameValid s = true ↔ ∃ body, s = body ++ [chk8 body]

/-- 40_primitives.md R94: byte `k` of `be_put(v, n)`, and `MemWrite(a, n, v)` stores those bytes and
leaves every other byte of the buffer alone (values and lengths the rule does not take: log
entry 19). -/
def Obligations.BigEndianPutLayout : Prop :=
  ∀ (n v : Nat),
    (bePut v n).length = n ∧
    (∀ k, k < n → (bePut v n)[k]? = some (BitVec.ofNat 8 (v >>> (8 * (n - 1 - k))))) ∧
    ∀ (m : Memory) (a i : Nat),
      (∀ k, k < n → (memWrite m a n v).read (a + k) = BitVec.ofNat 8 (v >>> (8 * (n - 1 - k)))) ∧
      (i < a ∨ a + n ≤ i → (memWrite m a n v).read i = m.read i)

/-- 40_primitives.md R95: the marshaller loses nothing in either direction (lengths the rule
does not take: log entry 19). -/
def Obligations.BigEndianRoundTrip : Prop :=
  (∀ n v : Nat, v < 2 ^ (8 * n) → beGetU (bePut v n) = v) ∧
  ∀ s : List Byte, bePut (beGetU s) s.length = s

/-- 40_primitives.md R96 (two's complement is the spec's GK13: log entry 7): the value by the top bit
of the first byte, and every value of the range comes back (lengths the rule does not take: log
entry 19). -/
def Obligations.SignedFieldsAreTwosComplement : Prop :=
  (∀ (b : Byte) (s : List Byte),
    beGetS (b :: s) =
      if 128 ≤ b.toNat then (beGetU (b :: s) : Int) - 2 ^ (8 * (s.length + 1))
      else (beGetU (b :: s) : Int)) ∧
  ∀ (n : Nat) (v : Int), 0 < n → -2 ^ (8 * n - 1) ≤ v → v < 2 ^ (8 * n - 1) →
    beGetS (bePut (v % 2 ^ (8 * n)).toNat n) = v

/-- 40_primitives.md R98 to R102, 46_decoder.md R190: each table and its inverse are a bijection
between the members and the listed bytes (their values are the spec's defaults: log entries 5, 6). -/
def Obligations.EnumerationTablesAreBijections : Prop :=
  (∀ b d, Direction.ofByte b = some d ↔ d.toByte = b) ∧
  (∀ b e, EnableLogic.ofByte b = some e ↔ e.toByte = b) ∧
  (∀ b z, ZeroMode.ofByte b = some z ↔ z.toByte = b) ∧
  (∀ b c, SaveClear.ofByte b = some c ↔ c.toByte = b) ∧
  (∀ b x, boolOfByte b = some x ↔ boolToByte x = b) ∧
  (∀ b a, AckStatus.ofByte b = some a ↔ a.toByte = b) ∧
  (∀ b p, EnPinStatus.ofByte b = some p ↔ p.toByte = b) ∧
  (∀ b h, ShaftStatus.ofByte b = some h ↔ h.toByte = b)

/-- 40_primitives.md R103 (that counter-clockwise sets the bit is read from the source's clockwise
example: log entry 5). -/
def Obligations.PackedDirectionAndSpeedReadBack : Prop :=
  ∀ (d : Direction) (speed : BitVec 8), speed.toNat ≤ 0x7F →
    packDs .clockwise speed = speed ∧
    packDs .counterClockwise speed = 0x80#8 ||| speed ∧
    dsDirection (packDs d speed) = d ∧
    dsSpeed (packDs d speed) = speed

/-! Encoding -/

/-- Decoding the word of a well-formed instruction gives the instruction back, whatever the address:
all 33 rows, every operand at every legal value (30_encoding.md R61, R65, R66, R78; the bytes that are
the spec's defaults and the model's boundary: log entries 1, 5, 10). -/
def Obligations.DecodeOfEncode : Prop :=
  ∀ (a : Byte) (i : Instr), i.WellFormed → decode i.port (encode a i) = .ok i

/-- The strict read-back accepts exactly the frames the codec can emit (30_encoding.md R60, R68, R78;
log entries 1, 5, 10). -/
def Obligations.ReadBackAcceptsExactlyEmittableFrames : Prop :=
  ∀ (bytes : List Byte) (i : Instr),
    readBack bytes = .ok i ↔
      i.port = .command ∧ i.WellFormed ∧ ∃ a, addrValid a = true ∧ bytes = encode a i

/-- Whatever the decoder accepts has legal operands and belongs to the half of the table it was read
by (30_encoding.md R68 d; log entries 5, 10). -/
def Obligations.DecodedInstructionsAreWellFormed : Prop :=
  ∀ (p : Port) (bytes : List Byte) (i : Instr),
    decode p bytes = .ok i → i.WellFormed ∧ i.port = p

/-- 30_encoding.md R67 for the values the model takes (24 of them the spec's defaults: log
entry 1). -/
def Obligations.OpcodesAreDistinct : Prop :=
  (∀ c d : Cmd, Config.opcode c = Config.opcode d → c = d) ∧
  Config.opcode .enableMotor = 0xF3#8 ∧
  Config.opcode .runMotor = 0xF6#8 ∧
  Config.opcode .stop = 0xF7#8

/-- Words of 95_test_vectors.md read as the instructions they stand for (256 as 0x00 and the
direction bit: log entry 5; opcodes and boundary: log entries 1, 10). -/
def Obligations.SpecWordsDecode : Prop :=
  decodeTableWord 24 0xE0F7D7 = some .stop ∧
  decodeTableWord 32 0xE0F60AE0 = some (.runMotor .clockwise 10) ∧
  decodeTableWord 32 0xE0840064 = some (.setSubdivision 256) ∧
  decodeTableWord 40 0xE0A504B039 = some (.setMaxTorque 0x4B0) ∧
  decodeTableWord 32 0xE0FFCAA9 = some (.saveClear .clear) ∧
  decodeTableWord 56 0xE0FDD5ABCDEF19 = some (.runPulses .counterClockwise 0x55 0xABCDEF)

/-! The step and the host's operations -/

/-- When the next operation's bytes, or the table word it names, decode to an instruction, the step is
that instruction's `exec` on the state with the operation taken; a word placed by `withFetchWord` runs
as the very next step (log entries 9 and 10). -/
def Obligations.StepRunsDecodedWord : Prop :=
  ∀ (s : State) (i : Instr),
    (∀ p bytes rest, s.pending = .words p bytes :: rest → decode p bytes = .ok i →
      step s = exec i { s with pending := rest }) ∧
    (∀ nbits w rest, s.pending = .tableWord nbits w :: rest → decodeTableWord nbits w = some i →
      step s = exec i { s with pending := rest }) ∧
    ∀ nbits w, decodeTableWord nbits w = some i → step (s.withFetchWord nbits w) = exec i s

/-- 70_reset_and_hazards.md R239 in the model's terms: idle with nothing presented; otherwise the oldest
operation, whichever it is, is served on the state with it taken: reset, set_address, a typed
instruction, a decode under its context, words read as an instruction or refused by name (log entries
8 to 11, 17). -/
def Obligations.StepServesOldestOperation : Prop :=
  (∀ s : State, s.pending = [] → step s = .next s) ∧
  ∀ (s : State) (r : Request) (rest : List Request), s.pending = r :: rest →
    step s = serve r { s with pending := rest } ∧
    match r with
    | .reset => step s = execReset { s with pending := rest }
    | .setAddress a => step s = execSetAddress a { s with pending := rest }
    | .op i => step s = exec i { s with pending := rest }
    | .decode c rx => step s = exec (Instr.ofContext c rx) { s with pending := rest }
    | .words p bytes =>
      (∀ i, decode p bytes = .ok i → step s = exec i { s with pending := rest }) ∧
      ∀ why, decode p bytes = .error why → step s = .refused (.undecodable why)
    | .tableWord nbits w =>
      (∀ i, decodeWord nbits w = .ok i → step s = exec i { s with pending := rest }) ∧
      ∀ why, decodeWord nbits w = .error why → step s = .refused (.undecodable why)

/-- 30_encoding.md R72, 46_decoder.md R175: the command context alone selects the row (the assignment
is the spec's decision D15: log entry 6). -/
def Obligations.DecodeContextSelectsKind : Prop :=
  ∀ (s : State) (c : Cmd) (rx : List Byte) (rest : List Request),
    s.pending = .decode c rx :: rest →
      step s = exec
        (if c = .readEncoder then .decodeEnc rx
         else if c = .readPulses ∨ c = .readAngle then .decodeI32 rx
         else if c = .readAngleError then .decodeI16 rx
         else if c = .readEnPin then .decodeEnPin rx
         else if c = .readShaftStatus then .decodeShaft rx
         else .decodeAck rx) { s with pending := rest }

/-- 20_memory.md R46, 60_exceptions.md R200: a step takes exactly the oldest operation and returns
exactly one result, or is idle and changes nothing. -/
def Obligations.StepTakesOneOperationAndReturnsOneResult : Prop :=
  ∀ s t : State, step s = .next t →
    (s.pending = [] ∧ t = s) ∨
    ∃ r rest q, s.pending = r :: rest ∧ t.pending = rest ∧ t.results = s.results ++ [q]

/-- 60_exceptions.md R200: no operation ends the machine; only words that are no instruction are
turned away (log entries 10, 13). -/
def Obligations.NothingStopsButUndecodableWords : Prop :=
  ∀ s : State,
    (∀ f, step s ≠ .fault f) ∧
    ∀ w, step s = .refused w → ∃ rest why, w = .undecodable why ∧
      ((∃ p bytes, s.pending = .words p bytes :: rest ∧ decode p bytes = .error why) ∨
        ∃ nbits n, s.pending = .tableWord nbits n :: rest ∧ decodeWord nbits n = .error why)

/-- 70_reset_and_hazards.md R230, R231 (the values are the spec's decisions: log entries 2, 3). -/
def Obligations.ResetOperationRestoresInitialState : Prop :=
  ∀ (s : State) (rest : List Request), s.pending = .reset :: rest →
    ∃ t, step s = .next t ∧ t.addr = 0xE0#8 ∧ (∀ i, t.buf.read i = 0x00#8) ∧ t.len.val = 0 ∧
      t.view = [] ∧ t.pending = rest ∧ t.results = s.results ++ [.ok .unit]

/-- 10_state.md R34 (the values are the spec's decisions: log entries 2, 3; `pending` and `results`
are the model's: log entry 8). -/
def Obligations.ResetStateValues : Prop :=
  State.reset.addr = 0xE0#8 ∧ (∀ i, State.reset.buf.read i = 0x00#8) ∧ State.reset.len.val = 0 ∧
    State.reset.pending = [] ∧ State.reset.results = []

/-- 40_primitives.md R107, R108. -/
def Obligations.SetAddressWritesOnlyValidAddresses : Prop :=
  ∀ (s : State) (a : Byte) (rest : List Request), s.pending = .setAddress a :: rest →
    (0xE0 ≤ a.toNat ∧ a.toNat ≤ 0xE9 →
      step s = .next { s with
        addr := a, pending := rest, results := s.results ++ [.ok .unit] }) ∧
    (a.toNat < 0xE0 ∨ 0xE9 < a.toNat →
      step s = .next { s with
        pending := rest, results := s.results ++ [.err .invalidAddress] })

/-- `new(a)`, 30_encoding.md R76, 70_reset_and_hazards.md R230: a codec at the chosen address, or at
`ADDR_RESET` with the error reported (log entries 2, 3). -/
def Obligations.ConstructionWithAddress : Prop :=
  ∀ (s : State) (a : Byte), s.pending = Request.new a →
    ∃ t, Host.Core.run core 2 s = .next t ∧ t.buf = [] ∧ t.len.val = 0 ∧ t.pending = [] ∧
      (addrValid a = true → t.addr = a ∧ t.results = s.results ++ [.ok .unit, .ok .unit]) ∧
      (addrValid a = false →
        t.addr = 0xE0#8 ∧ t.results = s.results ++ [.ok .unit, .err .invalidAddress])

/-! What each command returns and leaves -/

/-- 41_read.md R120 to R126 (opcodes: the spec's defaults, log entry 1). -/
def Obligations.ReadCommandsEmitMinimalFrames : Prop :=
  ∀ s : State, addrValid s.addr = true →
    Encodes .readEncoder s [s.addr, 0x30#8, s.addr + 0x30#8] ∧
    Encodes .readPulses s [s.addr, 0x33#8, s.addr + 0x33#8] ∧
    Encodes .readAngle s [s.addr, 0x36#8, s.addr + 0x36#8] ∧
    Encodes .readAngleError s [s.addr, 0x39#8, s.addr + 0x39#8] ∧
    Encodes .readEnPin s [s.addr, 0x3A#8, s.addr + 0x3A#8] ∧
    Encodes .readReleaseStatus s [s.addr, 0x3D#8, s.addr + 0x3D#8] ∧
    Encodes .readShaftStatus s [s.addr, 0x3E#8, s.addr + 0x3E#8]

/-- 42_config.md R130, R131, R138: the configuration commands with a checked argument (opcodes, the
zero-speed range and the byte of subdivision 256: log entries 1, 5). -/
def Obligations.CheckedConfigurationCommandsEmitFrames : Prop :=
  ∀ s : State, addrValid s.addr = true →
    (∀ idx, idx.toNat ≤ 15 →
      Encodes (.setCurrentLimit idx) s [s.addr, 0x83#8, idx, s.addr + 0x83#8 + idx]) ∧
    (∀ sub, 1 ≤ sub.toNat → sub.toNat ≤ 256 →
      Encodes (.setSubdivision sub) s
        [s.addr, 0x84#8, BitVec.ofNat 8 (sub.toNat % 256),
          s.addr + 0x84#8 + BitVec.ofNat 8 (sub.toNat % 256)]) ∧
    (∀ v, v.toNat ≤ 4 → Encodes (.setZeroSpeed v) s [s.addr, 0x92#8, v, s.addr + 0x92#8 + v])

/-- 42_config.md R132 to R137, R139: the configuration commands whose argument is of a closed type
(opcodes and bytes of the members: log entries 1, 5). -/
def Obligations.EnumeratedConfigurationCommandsEmitFrames : Prop :=
  ∀ s : State, addrValid s.addr = true →
    (∀ (e : EnableLogic) (p : Byte), (e, p) ∈ [(.low, 0x00#8), (.high, 0x01#8), (.alwaysOn, 0x02#8)] →
      Encodes (.setEnableLogic e) s [s.addr, 0x85#8, p, s.addr + 0x85#8 + p]) ∧
    (∀ (d : Direction) (p : Byte), (d, p) ∈ [(.clockwise, 0x00#8), (.counterClockwise, 0x01#8)] →
      Encodes (.setDirection d) s [s.addr, 0x86#8, p, s.addr + 0x86#8 + p] ∧
      Encodes (.setZeroDirection d) s [s.addr, 0x93#8, p, s.addr + 0x93#8 + p]) ∧
    (∀ (b : Bool) (p : Byte), (b, p) ∈ [(true, 0x01#8), (false, 0x00#8)] →
      Encodes (.setAutoScreenOff b) s [s.addr, 0x87#8, p, s.addr + 0x87#8 + p] ∧
      Encodes (.setStallProtection b) s [s.addr, 0x88#8, p, s.addr + 0x88#8 + p] ∧
      Encodes (.setInterpolation b) s [s.addr, 0x89#8, p, s.addr + 0x89#8 + p]) ∧
    (∀ (z : ZeroMode) (p : Byte),
      (z, p) ∈ [(.disabled, 0x00#8), (.directionMode, 0x01#8), (.nearestMode, 0x02#8)] →
      Encodes (.setZeroMode z) s [s.addr, 0x90#8, p, s.addr + 0x90#8 + p])

/-- 43_motion.md R150: the frame for a legal speed, `InvalidSpeed` for any other whatever the
direction, and the builder's own error (polarity and the bytes behind the frame: log entries 4, 5). -/
def Obligations.RunMotorPacksDirectionAndSpeed : Prop :=
  ∀ (s : State) (speed : BitVec 8),
    (speed.toNat ≤ 0x7F → addrValid s.addr = true →
      Encodes (.runMotor .clockwise speed) s [s.addr, 0xF6#8, speed, s.addr + 0xF6#8 + speed] ∧
      Encodes (.runMotor .counterClockwise speed) s
        [s.addr, 0xF6#8, 0x80#8 ||| speed, s.addr + 0xF6#8 + (0x80#8 ||| speed)]) ∧
    (speed.toNat ≤ 0x7F → addrValid s.addr = false →
      ∀ d, Returns (.runMotor d speed) s (.err .invalidAddress)) ∧
    (0x7F < speed.toNat → ∀ d, Returns (.runMotor d speed) s (.err .invalidSpeed))

/-- 43_motion.md R151 (opcode 0xFD and the pulse maximum: log entries 1, 5). -/
def Obligations.RunPulsesEmitsSevenBytes : Prop :=
  ∀ (s : State) (d : Direction) (speed : BitVec 8) (pulses : BitVec 32),
    addrValid s.addr = true → speed.toNat ≤ 0x7F → pulses.toNat ≤ 0xFFFFFF →
    ∃ ds, (d = .clockwise → ds = speed) ∧ (d = .counterClockwise → ds = 0x80#8 ||| speed) ∧
      Encodes (.runPulses d speed pulses) s
        [s.addr, 0xFD#8, ds, BitVec.ofNat 8 (pulses.toNat / 65536),
          BitVec.ofNat 8 (pulses.toNat / 256 % 256), BitVec.ofNat 8 (pulses.toNat % 256),
          chk8 [s.addr, 0xFD#8, ds, BitVec.ofNat 8 (pulses.toNat / 65536),
            BitVec.ofNat 8 (pulses.toNat / 256 % 256), BitVec.ofNat 8 (pulses.toNat % 256)]]

/-- 43_motion.md R152 (the bytes behind the frame: log entry 4). -/
def Obligations.StopEmitsShortestFrame : Prop :=
  ∀ s : State,
    (addrValid s.addr = true → Encodes .stop s [s.addr, 0xF7#8, s.addr + 0xF7#8]) ∧
    (addrValid s.addr = false → Returns .stop s (.err .invalidAddress))

/-- 43_motion.md R153 (the byte of disable: log entry 5). -/
def Obligations.EnableMotorEmitsOnOffByte : Prop :=
  ∀ s : State, addrValid s.addr = true →
    Encodes (.enableMotor true) s [s.addr, 0xF3#8, 0x01#8, s.addr + 0xF4#8] ∧
    Encodes (.enableMotor false) s [s.addr, 0xF3#8, 0x00#8, s.addr + 0xF3#8]

/-- 44_tuning.md R160 to R164 (that the first four take every value: log entry 5; opcodes: log
entry 1). -/
def Obligations.TuningCommandsEmitBigEndianValue : Prop :=
  ∀ (s : State) (v : BitVec 16) (h l : Byte), addrValid s.addr = true →
    h = BitVec.ofNat 8 (v.toNat / 256) → l = BitVec.ofNat 8 (v.toNat % 256) →
    Encodes (.setKp v) s [s.addr, 0xA1#8, h, l, s.addr + 0xA1#8 + h + l] ∧
    Encodes (.setKi v) s [s.addr, 0xA2#8, h, l, s.addr + 0xA2#8 + h + l] ∧
    Encodes (.setKd v) s [s.addr, 0xA3#8, h, l, s.addr + 0xA3#8 + h + l] ∧
    Encodes (.setAcceleration v) s [s.addr, 0xA4#8, h, l, s.addr + 0xA4#8 + h + l] ∧
    (v.toNat ≤ 0x4B0 →
      Encodes (.setMaxTorque v) s [s.addr, 0xA5#8, h, l, s.addr + 0xA5#8 + h + l])

/-- 45_save_clear.md R170 (opcode: log entry 1). -/
def Obligations.SaveClearEmitsSentinel : Prop :=
  ∀ s : State, addrValid s.addr = true →
    Encodes (.saveClear .save) s [s.addr, 0xFF#8, 0xC8#8, s.addr + 0xFF#8 + 0xC8#8] ∧
    Encodes (.saveClear .clear) s [s.addr, 0xFF#8, 0xCA#8, s.addr + 0xFF#8 + 0xCA#8]

/-- 30_encoding.md R62, R63, R64: whatever the command and its arguments, an emitted frame starts with
`ADDR` and the command's opcode and ends with the checksum of all bytes before. -/
def Obligations.EmittedFrameFields : Prop :=
  ∀ (i : Instr) (c : Cmd) (s t : State) (f : List Byte), i.cmd = some c → exec i s = .next t →
    t.results = s.results ++ [.ok (.frame f)] →
    0xE0 ≤ s.addr.toNat ∧ s.addr.toNat ≤ 0xE9 ∧
    ∃ payload, f = s.addr :: Config.opcode c :: payload ++
      [chk8 (s.addr :: Config.opcode c :: payload)]

/-- 60_exceptions.md R204, R205, R206: an argument out of range returns its error, from every state
and with nothing written. -/
def Obligations.ConfigurationRangesAreEnforced : Prop :=
  ∀ s : State,
    (∀ idx, 15 < idx.toNat → Returns (.setCurrentLimit idx) s (.err .invalidCurrentLimit)) ∧
    (∀ sub, sub.toNat = 0 ∨ 256 < sub.toNat →
      Returns (.setSubdivision sub) s (.err .invalidSubdivision)) ∧
    ∀ v, 0x4B0 < v.toNat → Returns (.setMaxTorque v) s (.err .invalidTorque)

/-- 60_exceptions.md R201, column "code": the numbers are the spec's own decision (log entry 7). -/
def Obligations.ErrorCodesFollowTheirTable : Prop :=
  errCode .invalidAddress = 1 ∧ errCode .invalidSpeed = 2 ∧ errCode .invalidCurrentLimit = 3 ∧
    errCode .invalidSubdivision = 4 ∧ errCode .invalidTorque = 5 ∧ errCode .invalidPulseCount = 6 ∧
    errCode .invalidPacket = 7 ∧ errCode .invalidResponse = 8 ∧ errCode .deviceReportedFailure = 9 ∧
    (∀ e, resultCode (.err e) = errCode e) ∧ ∀ v, resultCode (.ok v) = 0

/-- 60_exceptions.md R203, R207, R211: speeds and pulse counts, the speed first (the zero-speed range
and the pulse maximum: log entry 5). -/
def Obligations.SpeedIsCheckedBeforePulseCount : Prop :=
  ∀ (s : State) (d : Direction) (speed : BitVec 8) (pulses : BitVec 32),
    (0x7F < speed.toNat → Returns (.runPulses d speed pulses) s (.err .invalidSpeed)) ∧
    (speed.toNat ≤ 0x7F → 0xFFFFFF < pulses.toNat →
      Returns (.runPulses d speed pulses) s (.err .invalidPulseCount)) ∧
    ∀ v : BitVec 8, 4 < v.toNat → Returns (.setZeroSpeed v) s (.err .invalidSpeed)

/-- 40_primitives.md R105, 60_exceptions.md R202, R211: with an invalid stored address every command
whose arguments are legal returns `InvalidAddress` and writes nothing. No run reaches such a state. -/
def Obligations.InvalidStoredAddressIsReported : Prop :=
  ∀ (i : Instr) (s : State), i.port = .command → i.WellFormed → addrValid s.addr = false →
    Returns i s (.err .invalidAddress)

/-- 60_exceptions.md R201, columns "raised by" and "cause": an error is returned only by the
operations the table lists for it and only for their cause (bounds, lengths and status bytes that are
the spec's: log entries 5, 6). -/
def Obligations.ErrorsComeOnlyFromTheirCauses : Prop :=
  ∀ (i : Instr) (s t : State) (e : Err), exec i s = .next t →
    t.results = s.results ++ [.err e] →
    match e with
    | .invalidAddress => i.port = .command ∧ (s.addr.toNat < 0xE0 ∨ 0xE9 < s.addr.toNat)
    | .invalidSpeed =>
      (∃ d v, i = .runMotor d v ∧ 0x7F < v.toNat) ∨
      (∃ d v p, i = .runPulses d v p ∧ 0x7F < v.toNat) ∨ ∃ v, i = .setZeroSpeed v ∧ 4 < v.toNat
    | .invalidCurrentLimit => ∃ idx, i = .setCurrentLimit idx ∧ 15 < idx.toNat
    | .invalidSubdivision => ∃ n, i = .setSubdivision n ∧ (n.toNat = 0 ∨ 256 < n.toNat)
    | .invalidTorque => ∃ v, i = .setMaxTorque v ∧ 0x4B0 < v.toNat
    | .invalidPulseCount => ∃ d v p, i = .runPulses d v p ∧ v.toNat ≤ 0x7F ∧ 0xFFFFFF < p.toNat
    | .invalidPacket => ∃ k rx, i = .ofKind k rx ∧
        (rx.length < Config.responseLength k ∨
          rx[Config.responseLength k - 1]? ≠ some (chk8 (rx.take (Config.responseLength k - 1))))
    | .invalidResponse => ∃ rx st, rx[1]? = some st ∧
        ((i = .decodeAck rx ∧ st ≠ 0x00#8 ∧ st ≠ 0x01#8) ∨
         ((i = .decodeEnPin rx ∨ i = .decodeShaft rx) ∧ st ≠ 0x01#8 ∧ st ≠ 0x02#8))
    | .deviceReportedFailure => ∃ rx, i = .decodeAck rx ∧ rx[1]? = some 0x00#8

/-- 60_exceptions.md R212: an operation that returns an error has written no state, and `decode`
writes none whether it succeeds or fails. -/
def Obligations.ErrorLeavesStateUnchanged : Prop :=
  (∀ (r : Request) (s t : State) (e : Err), serve r s = .next t →
    t.results = s.results ++ [.err e] → t = { s with results := s.results ++ [.err e] }) ∧
  ∀ (c : Cmd) (rx : List Byte) (s t : State), serve (.decode c rx) s = .next t →
    t = { s with results := t.results }

/-! What decoding returns -/

/-- 10_state.md R32, 46_decoder.md R187: for every context and all bytes, exactly one result, the same
in every state, and nothing else changed. -/
def Obligations.DecodeIsStateless : Prop :=
  ∀ (c : Cmd) (rx : List Byte), ∃ r : Result, ∀ s : State,
    serve (.decode c rx) s = .next { s with results := s.results ++ [r] }

/-- 46_decoder.md R176, R177, R186: too few bytes or a wrong checksum is `InvalidPacket`, whatever the
payload. -/
def Obligations.ShortOrCorruptResponsesAreRejected : Prop :=
  ∀ (k : RespKind) (rx : List Byte) (s : State),
    (rx.length < Config.responseLength k → Returns (.ofKind k rx) s (.err .invalidPacket)) ∧
    ∀ (body tail : List Byte) (ck : Byte), body.length + 1 = Config.responseLength k →
      rx = body ++ ck :: tail → ck ≠ chk8 body → Returns (.ofKind k rx) s (.err .invalidPacket)

/-- 46_decoder.md R180 (layout and status bytes: log entry 6), with any header and any bytes behind
the frame (R178, R179). -/
def Obligations.AcknowledgementsByStatusByte : Prop :=
  ∀ (h st : Byte) (tail : List Byte) (s : State),
    Returns (.decodeAck (h :: st :: (h + st) :: tail)) s
      (if st = 0x01#8 then .ok .ack
       else if st = 0x00#8 then .err .deviceReportedFailure else .err .invalidResponse)

/-- 46_decoder.md R184, R185 (layouts and status bytes: log entry 6). -/
def Obligations.StatusReadsByStatusByte : Prop :=
  ∀ (h st : Byte) (tail : List Byte) (s : State),
    Returns (.decodeEnPin (h :: st :: (h + st) :: tail)) s
      (if st = 0x01#8 then .ok (.enPin .enabled)
       else if st = 0x02#8 then .ok (.enPin .disabled) else .err .invalidResponse) ∧
    Returns (.decodeShaft (h :: st :: (h + st) :: tail)) s
      (if st = 0x01#8 then .ok (.shaft .blocked)
       else if st = 0x02#8 then .ok (.shaft .unblocked) else .err .invalidResponse)

/-- 46_decoder.md R181, 40_primitives.md R97: every carry and every value come back from their frame,
neither disturbing the other (layout: log entry 6). -/
def Obligations.EncoderResponseGivesCarryAndValue : Prop :=
  ∀ (h : Byte) (carry : Int) (value : Nat) (tail : List Byte) (s : State),
    -2 ^ 31 ≤ carry → carry < 2 ^ 31 → value < 2 ^ 16 →
    Returns (.decodeEnc (h :: bePut (carry % 2 ^ 32).toNat 4 ++ bePut value 2 ++
        chk8 (h :: bePut (carry % 2 ^ 32).toNat 4 ++ bePut value 2) :: tail)) s
      (.ok (.encoder carry value))

/-- 46_decoder.md R182, R183 (layouts and widths: log entry 6). -/
def Obligations.SignedResponsesGiveTheirValue : Prop :=
  ∀ (h : Byte) (v : Int) (tail : List Byte) (s : State),
    (-2 ^ 31 ≤ v → v < 2 ^ 31 →
      Returns (.decodeI32 (h :: bePut (v % 2 ^ 32).toNat 4 ++
        chk8 (h :: bePut (v % 2 ^ 32).toNat 4) :: tail)) s (.ok (.int32 v))) ∧
    (-2 ^ 15 ≤ v → v < 2 ^ 15 →
      Returns (.decodeI16 (h :: bePut (v % 2 ^ 16).toNat 2 ++
        chk8 (h :: bePut (v % 2 ^ 16).toNat 2) :: tail)) s (.ok (.int16 v)))

/-- 46_decoder.md R177 with 40_primitives.md R91: a response accepted as a frame is rejected as soon
as any one of its `N` bytes is changed. -/
def Obligations.OneCorruptedByteIsRejected : Prop :=
  ∀ (k : RespKind) (rx : List Byte) (r : Result) (n : Nat) (old new : Byte) (s : State),
    Returns (.ofKind k rx) s r → r ≠ .err .invalidPacket →
    n < Config.responseLength k → rx[n]? = some old → new ≠ old →
    Returns (.ofKind k (rx.set n new)) s (.err .invalidPacket)

/-- 46_decoder.md R178 (decision D19): bytes behind the first `N` change nothing. -/
def Obligations.BytesBehindTheFrameAreIgnored : Prop :=
  ∀ (k : RespKind) (rx tail : List Byte), Config.responseLength k ≤ rx.length →
    ∃ r, ∀ s, Returns (.ofKind k rx) s r ∧ Returns (.ofKind k (rx ++ tail)) s r

/-- 46_decoder.md R179 (decision D18): the header byte enters the sum and nothing else. -/
def Obligations.HeaderByteIsOnlySummed : Prop :=
  ∀ (k : RespKind) (h g ck : Byte) (payload tail : List Byte),
    payload.length + 2 = Config.responseLength k →
    ∃ r, ∀ s, Returns (.ofKind k (h :: payload ++ ck :: tail)) s r ∧
      Returns (.ofKind k (g :: payload ++ (ck + (g - h)) :: tail)) s r

/-- 46_decoder.md R188: the kind of value depends on the command context alone, and each number lies
in its type (kinds and widths: log entry 6). -/
def Obligations.ResultTypeIsFixedByContext : Prop :=
  ∀ (c : Cmd) (rx : List Byte) (s t : State) (v : Value), serve (.decode c rx) s = .next t →
    t.results = s.results ++ [.ok v] →
    match c with
    | .readEncoder => ∃ carry value, v = .encoder carry value ∧ -2 ^ 31 ≤ carry ∧
        carry < 2 ^ 31 ∧ value < 2 ^ 16
    | .readPulses | .readAngle => ∃ n, v = .int32 n ∧ -2 ^ 31 ≤ n ∧ n < 2 ^ 31
    | .readAngleError => ∃ n, v = .int16 n ∧ -2 ^ 15 ≤ n ∧ n < 2 ^ 15
    | .readEnPin => ∃ p, v = .enPin p
    | .readShaftStatus => ∃ p, v = .shaft p
    | _ => v = .ack

/-! The whole machine -/

/-- From every state that meets the invariant, reachable or not, a step gives one that meets it: the
stored address is valid (10_state.md R28), the buffer is canonical and never written outside
`BUF[0..9]` (20_memory.md R51), and R24 holds
(log entries 2, 3, 4). -/
def Obligations.StepKeepsInvariant : Prop :=
  ∀ s t : State, CodecInv s → step s = .next t → CodecInv t

/-- The invariant holds after reset (the reset values: log entries 2, 3). -/
def Obligations.InvariantHoldsAtReset : Prop :=
  CodecInv State.reset

/-- 10_state.md R28, 60_exceptions.md R202: whatever the host presents to a codec fresh from reset,
the stored address stays valid and no instruction returns `InvalidAddress`; what `CodecInv` says of
`BUF` and `LEN` rests on log entries 3 and 4, the first address on log entry 2. -/
def Obligations.NoReachableEncodeReportsInvalidAddress : Prop :=
  ∀ (ops : List Request) (n : Nat) (s : State),
    Host.Core.run core n { State.reset with pending := ops } = .next s →
    CodecInv s ∧ ∀ (i : Instr) (t : State), exec i s = .next t →
      t.results ≠ s.results ++ [.err .invalidAddress]

/-- 10_state.md R21: only `reset` and a `set_address` of a valid address write `ADDR`. -/
def Obligations.OnlyResetAndSetAddressWriteAddr : Prop :=
  ∀ s t : State, step s = .next t → t.addr ≠ s.addr →
    (∃ rest, s.pending = .reset :: rest ∧ t.addr = 0xE0#8) ∨
    ∃ a rest, s.pending = .setAddress a :: rest ∧ addrValid a = true ∧ t.addr = a

/-- 30_encoding.md R78 with 10_state.md R23: the frame a command returns is `BUF[0..LEN)` afterwards,
is the encoder's word for that command at the stored address, and reads back as the command (log
entries 1, 5, 10). -/
def Obligations.EmittedFrameReadsBack : Prop :=
  ∀ (i : Instr) (s t : State) (f : List Byte), exec i s = .next t →
    t.results = s.results ++ [.ok (.frame f)] →
    f = t.view ∧ f = encode s.addr i ∧ readBack f = .ok i ∧ frameValid f = true ∧
      (f.length = 3 ∨ f.length = 4 ∨ f.length = 5 ∨ f.length = 7)

/-- 40_primitives.md R106: an instruction's result, and the buffer and length a successful command
leaves, are functions of the address and the instruction alone. -/
def Obligations.EncodeIsPure : Prop :=
  ∀ (i : Instr) (s u : State), Memory.wf s.buf → Memory.wf u.buf → s.addr = u.addr →
    ∃ r t w, exec i s = .next t ∧ exec i u = .next w ∧
      t.results = s.results ++ [r] ∧ w.results = u.results ++ [r] ∧
      ∀ f, r = .ok (.frame f) → t.buf = w.buf ∧ t.len = w.len

/-- 60_exceptions.md R200, 70_reset_and_hazards.md R237: every instruction completes in every state
with one result; the address and the host's stream stay as they were, and `BUF` and `LEN` change only when
a frame is returned. -/
def Obligations.EveryInstructionCompletes : Prop :=
  ∀ (i : Instr) (s : State), ∃ t r, exec i s = .next t ∧ t.results = s.results ++ [r] ∧
    t.addr = s.addr ∧ t.pending = s.pending ∧
    ((∀ f, r ≠ .ok (.frame f)) → t.buf = s.buf ∧ t.len = s.len)

/-- 60_exceptions.md R222 at the model's boundary (log entry 10): a table word is exactly the number
given, and a number that does not fit its word, or a word of no whole bytes, is refused by name and
never read as another word. -/
def Obligations.TableWordsThatDoNotFitAreRefused : Prop :=
  ∀ nbits w : Nat,
    (∀ bytes, wordBytes nbits w = .ok bytes → 8 * bytes.length = nbits ∧ beGetU bytes = w) ∧
    (nbits % 8 = 0 → w < 2 ^ nbits → ∃ bytes, wordBytes nbits w = .ok bytes) ∧
    (nbits % 8 ≠ 0 ∨ 2 ^ nbits ≤ w → decodeTableWord nbits w = none ∧
      ∀ s : State, step (s.withFetchWord nbits w) = .refused (.undecodable .width))
end

