-- ==== Sys2Proof/Laws/Marshal.lean ====
section
/-!
SUPPORT. Lengths, shapes and small equations of the checksum, the marshaller and the operand forms.
-/

namespace Sys2Proof.Machine

@[simp] theorem length_frameOf (a op : Byte) (p : List Byte) :
    (frameOf a op p).length = 3 + p.length := by
  simp [frameOf]; omega

@[simp] theorem length_bePut (v n : Nat) : (bePut v n).length = n := by
  induction n with
  | zero => rfl
  | succ n ih => simp [bePut, ih]

@[simp] theorem length_u16Payload (v : BitVec 16) : (u16Payload v).length = 2 := length_bePut _ _

@[simp] theorem length_u24Payload (p : BitVec 32) : (u24Payload p).length = 3 := length_bePut _ _

/-- One 8-bit addition a byte, the carry discarded (40_primitives.md R91). -/
theorem chk8_cons (b : Byte) (s : List Byte) : chk8 (b :: s) = b + chk8 s := by
  simp [chk8, BitVec.ofNat_add]

/-- A byte sequence is a valid frame exactly when it ends in the checksum of what stands before. -/
theorem frameValid_concat (body : List Byte) (c : Byte) :
    frameValid (body ++ [c]) = true ↔ c = chk8 body := by
  simp [frameValid]

theorem frameValid_frameOf (a op : Byte) (p : List Byte) : frameValid (frameOf a op p) = true :=
  (frameValid_concat _ _).mpr rfl

theorem beGetU_lt (s : List Byte) : beGetU s < 256 ^ s.length := by
  induction s with
  | nil => simp [beGetU]
  | cons b s ih =>
    have hb : b.toNat + 1 ≤ 256 := b.isLt
    have hm : (b.toNat + 1) * 256 ^ s.length ≤ 256 * 256 ^ s.length := Nat.mul_le_mul_right _ hb
    rw [beGetU, List.length_cons, pow_succ]
    rw [Nat.add_mul, Nat.one_mul] at hm
    rw [Nat.mul_comm (256 ^ s.length)]
    exact Nat.lt_of_lt_of_le (Nat.add_lt_add_left ih _) hm

end Sys2Proof.Machine
end

