-- ==== Sys2Proof/Laws/Memory.lean ====
section
/-!
SUPPORT. The scratch buffer's storage: a read after a write, every operation keeps the canonical
form, and equal contents in canonical form are equal lists.
-/

namespace Sys2Proof.Machine

@[simp] theorem Memory.read_nil (a : Nat) : Memory.read [] a = Memory.unlisted := rfl

theorem Memory.read_cons (c : Host.Cell) (m : Memory) (a : Nat) :
    Memory.read (c :: m) a = if c.1 = a then c.2 else Memory.read m a := rfl

theorem Memory.read_of_absent {m : Memory} {a : Nat} (h : ∀ c ∈ m, c.1 ≠ a) :
    Memory.read m a = Memory.unlisted := by
  induction m with
  | nil => rfl
  | cons c m ih =>
    rw [Memory.read_cons, if_neg (h c (by simp)), ih fun d hd => h d (by simp [hd])]

theorem Memory.read_filter_other (m : Memory) {a b : Nat} (h : b ≠ a) :
    Memory.read (m.filter fun c => c.1 ≠ a) b = Memory.read m b := by
  induction m with
  | nil => rfl
  | cons c m ih =>
    by_cases hc : c.1 = a
    · rw [List.filter_cons_of_neg (by simp [hc]), ih, Memory.read_cons, if_neg (by omega)]
    · rw [List.filter_cons_of_pos (by simp [hc]), Memory.read_cons, Memory.read_cons, ih]

theorem Memory.read_filter_same (m : Memory) (a : Nat) :
    Memory.read (m.filter fun c => c.1 ≠ a) a = Memory.unlisted :=
  Memory.read_of_absent fun c hc => by simpa using (List.mem_filter.mp hc).2

theorem Memory.read_putCell (m : Memory) (a : Nat) (v : Byte) (b : Nat) (h : ∀ c ∈ m, c.1 ≠ a) :
    Memory.read (Memory.putCell m a v) b = if b = a then v else Memory.read m b := by
  induction m with
  | nil => simp [Memory.putCell, Memory.read_cons, eq_comm]
  | cons c m ih =>
    have hc : c.1 ≠ a := h c (by simp)
    unfold Memory.putCell
    split
    · simp [Memory.read_cons, eq_comm]
    · rw [Memory.read_cons, ih fun d hd => h d (by simp [hd]), Memory.read_cons]
      split_ifs <;> first | rfl | omega

/-- A byte reads as what was last written there; a write leaves every other byte alone. -/
theorem Memory.read_write (m : Memory) (a : Nat) (v : Byte) (b : Nat) :
    Memory.read (Memory.write m a v) b = if b = a then v else Memory.read m b := by
  unfold Memory.write
  by_cases hb : b = a
  · subst hb
    rw [if_pos rfl]
    split
    · rw [Memory.read_filter_same]; exact Eq.symm ‹_›
    · rw [Memory.read_putCell _ _ _ _ (by simp), if_pos rfl]
  · rw [if_neg hb]
    split
    · exact Memory.read_filter_other m hb
    · rw [Memory.read_putCell _ _ _ _ (by simp), if_neg hb, Memory.read_filter_other m hb]

/-- Consecutive bytes written from `a` read back in place; every other byte is left alone. -/
theorem Memory.read_writeAll (bs : List Byte) (m : Memory) (a b : Nat) :
    Memory.read (Memory.writeAll m a bs) b =
      if a ≤ b ∧ b < a + bs.length then bs.getD (b - a) Memory.unlisted else Memory.read m b := by
  induction bs generalizing m a with
  | nil => simp [Memory.writeAll]
  | cons v bs ih =>
    rw [Memory.writeAll, ih, Memory.read_write]
    by_cases h : b = a
    · subst h; simp
    · by_cases h' : a + 1 ≤ b ∧ b < a + 1 + bs.length
      · obtain ⟨k, rfl⟩ : ∃ k, b = a + 1 + k := ⟨b - (a + 1), by omega⟩
        have hk : a + 1 + k - a = k + 1 := by omega
        have hk' : a + 1 + k - (a + 1) = k := by omega
        rw [if_pos h', if_pos (by rw [List.length_cons]; omega), hk, hk', List.getD_cons_succ]
      · rw [if_neg h', if_neg h, if_neg (by simp; omega)]

theorem Memory.length_readAll (m : Memory) (a n : Nat) : (Memory.readAll m a n).length = n := by
  induction n generalizing a with
  | zero => rfl
  | succ n ih => simp [Memory.readAll, ih]

theorem Memory.getElem_readAll (m : Memory) (a n i : Nat) (h : i < (Memory.readAll m a n).length) :
    (Memory.readAll m a n)[i] = Memory.read m (a + i) := by
  induction n generalizing a i with
  | zero => simp [Memory.readAll] at h
  | succ n ih =>
    cases i with
    | zero => rfl
    | succ i => simp [Memory.readAll, ih, Nat.add_assoc, Nat.add_comm 1 i]

/-- `BUF[a .. a+n)` is a list as soon as its bytes are the list's. -/
theorem Memory.readAll_eq {m : Memory} {a : Nat} {bs : List Byte}
    (h : ∀ i (hi : i < bs.length), Memory.read m (a + i) = bs[i]) :
    Memory.readAll m a bs.length = bs :=
  List.ext_getElem (by simp [Memory.length_readAll]) fun i h₁ h₂ => by
    rw [Memory.getElem_readAll, h i h₂]

theorem Memory.wf_nil : Memory.wf [] := by simp [Memory.wf]

theorem Memory.wf_filter {m : Memory} (h : Memory.wf m) (a : Nat) :
    Memory.wf (m.filter fun c => c.1 ≠ a) :=
  ⟨h.1.filter _, fun c hc => h.2 c (List.mem_filter.mp hc).1⟩

theorem Memory.mem_putCell {m : Memory} {a : Nat} {v : Byte} {c : Host.Cell}
    (h : c ∈ Memory.putCell m a v) : c = (a, v) ∨ c ∈ m := by
  induction m with
  | nil => simpa [Memory.putCell] using h
  | cons d m ih =>
    unfold Memory.putCell at h
    split at h
    · simpa using h
    · rcases List.mem_cons.mp h with rfl | h
      · simp
      · rcases ih h with h | h <;> simp [h]

theorem Memory.wf_putCell {m : Memory} {a : Nat} {v : Byte} (h : Memory.wf m)
    (ha : a < Config.bufCap) (hv : v ≠ Memory.unlisted) (hn : ∀ c ∈ m, c.1 ≠ a) :
    Memory.wf (Memory.putCell m a v) := by
  refine ⟨?_, fun c hc => ?_⟩
  · obtain ⟨hs, -⟩ := h
    induction m with
    | nil => simp [Memory.putCell]
    | cons d m ih =>
      obtain ⟨hd, hs⟩ := List.pairwise_cons.mp hs
      have hda : d.1 ≠ a := hn d (by simp)
      unfold Memory.putCell
      split
      · refine List.pairwise_cons.mpr ⟨fun c hc => ?_, List.pairwise_cons.mpr ⟨hd, hs⟩⟩
        rcases List.mem_cons.mp hc with rfl | hc
        · assumption
        · have := hd c hc; simp only at *; omega
      · refine List.pairwise_cons.mpr ⟨fun c hc => ?_, ih (fun c hc => hn c (by simp [hc])) hs⟩
        rcases Memory.mem_putCell hc with rfl | hc
        · simp only at *; omega
        · exact hd c hc
  · rcases Memory.mem_putCell hc with rfl | hc
    · exact ⟨ha, hv⟩
    · exact h.2 c hc

/-- A write inside the buffer keeps the canonical form. -/
theorem Memory.wf_write {m : Memory} (h : Memory.wf m) {a : Nat} (ha : a < Config.bufCap) (v : Byte) :
    Memory.wf (Memory.write m a v) := by
  unfold Memory.write
  split
  · exact Memory.wf_filter h a
  · exact Memory.wf_putCell (Memory.wf_filter h a) ha ‹_› (by simp)

theorem Memory.wf_writeAll {m : Memory} (h : Memory.wf m) {a : Nat} {bs : List Byte}
    (hb : a + bs.length ≤ Config.bufCap) : Memory.wf (Memory.writeAll m a bs) := by
  induction bs generalizing m a with
  | nil => exact h
  | cons v bs ih =>
    simp only [List.length_cons] at hb
    exact ih (Memory.wf_write h (by omega) v) (by omega)

theorem Memory.wf_memWrite {m : Memory} (h : Memory.wf m) {a n v : Nat}
    (hb : a + (bePut v n).length ≤ Config.bufCap) : Memory.wf (memWrite m a n v) :=
  Memory.wf_writeAll h hb

/-- In canonical form the cells are the bytes that differ from the unlisted one. -/
theorem Memory.mem_iff_read {m : Memory} (h : Memory.wf m) (c : Host.Cell) :
    c ∈ m ↔ Memory.read m c.1 = c.2 ∧ c.2 ≠ Memory.unlisted := by
  induction m with
  | nil => simp only [List.not_mem_nil, Memory.read_nil, false_iff, not_and, not_not]; exact Eq.symm
  | cons d m ih =>
    obtain ⟨hd, hs⟩ := List.pairwise_cons.mp h.1
    have hm : Memory.wf m := ⟨hs, fun c hc => h.2 c (by simp [hc])⟩
    rw [List.mem_cons, Memory.read_cons]
    by_cases hc : d.1 = c.1
    · rw [if_pos hc]
      constructor
      · rintro (rfl | hm')
        · exact ⟨rfl, (h.2 c (by simp)).2⟩
        · have := hd c hm'; omega
      · rintro ⟨h₁, -⟩
        exact .inl (Prod.ext hc.symm h₁.symm)
    · rw [if_neg hc, ← ih hm]
      constructor
      · rintro (rfl | h')
        · exact absurd rfl hc
        · exact h'
      · exact .inr

/-- Equal contents in canonical form are equal lists. -/
theorem Memory.ext_of_wf {m n : Memory} (hm : Memory.wf m) (hn : Memory.wf n)
    (h : ∀ a, a < Config.bufCap → Memory.read m a = Memory.read n a) : m = n := by
  have out : ∀ {k : Memory} {a : Nat}, Memory.wf k → ¬a < Config.bufCap →
      Memory.read k a = Memory.unlisted := fun hk ha =>
    Memory.read_of_absent fun c hc he => ha (he ▸ (hk.2 c hc).1)
  have hread : ∀ a, Memory.read m a = Memory.read n a := fun a => by
    by_cases ha : a < Config.bufCap
    · exact h a ha
    · rw [out hm ha, out hn ha]
  have hmem : ∀ c, c ∈ m ↔ c ∈ n := fun c => by
    rw [Memory.mem_iff_read hm, Memory.mem_iff_read hn, hread]
  have nd : ∀ {k : Memory}, Memory.wf k → k.Nodup := fun hk =>
    hk.1.imp fun hlt he => by simp [he] at hlt
  have perm : m.Perm n := (List.perm_ext_iff_of_nodup (nd hm) (nd hn)).mpr hmem
  exact perm.eq_of_pairwise (fun a b _ _ h₁ h₂ => by omega) hm.1 hn.1

end Sys2Proof.Machine
end

