-- ==== Sys2Proof/Laws/Operands.lean ====
section
/-!
SUPPORT. The legal ranges as inequalities, and the operand tables read in both directions.
-/

namespace Sys2Proof

theorem addrValid_iff (a : Byte) : addrValid a = true ↔ 0xE0 ≤ a.toNat ∧ a.toNat ≤ 0xE9 := by
  simp [addrValid]

theorem addrValid_eq_false_iff (a : Byte) :
    addrValid a = false ↔ a.toNat < 0xE0 ∨ 0xE9 < a.toNat := by
  rw [← Bool.not_eq_true, addrValid_iff]; omega

theorem wellFormed_setCurrentLimit (idx : BitVec 8) :
    (Instr.setCurrentLimit idx).wellFormed = true ↔ idx.toNat ≤ 15 := by
  simp [Instr.wellFormed]

theorem wellFormed_setSubdivision (sub : BitVec 16) :
    (Instr.setSubdivision sub).wellFormed = true ↔ 1 ≤ sub.toNat ∧ sub.toNat ≤ 256 := by
  simp [Instr.wellFormed]

theorem wellFormed_setZeroSpeed (v : BitVec 8) :
    (Instr.setZeroSpeed v).wellFormed = true ↔ v.toNat ≤ 4 := by
  simp [Instr.wellFormed]

theorem wellFormed_runMotor (d : Direction) (speed : BitVec 8) :
    (Instr.runMotor d speed).wellFormed = true ↔ speed.toNat ≤ 0x7F := by
  simp [Instr.wellFormed]

theorem wellFormed_runPulses (d : Direction) (speed : BitVec 8) (pulses : BitVec 32) :
    (Instr.runPulses d speed pulses).wellFormed = true ↔
      speed.toNat ≤ 0x7F ∧ pulses.toNat ≤ 0xFFFFFF := by
  simp [Instr.wellFormed]

theorem wellFormed_setMaxTorque (v : BitVec 16) :
    (Instr.setMaxTorque v).wellFormed = true ↔ v.toNat ≤ 0x4B0 := by
  simp [Instr.wellFormed]

/-- The opcode of every command identifies it (30_encoding.md R67). -/
theorem Cmd.ofOpcode_opcode (c : Cmd) : Cmd.ofOpcode (Config.opcode c) = some c := by
  cases c <;> decide

/-- The bytes of a table word, case by case: a number that fits whole bytes, or a refusal. -/
theorem wordBytes_cases (nbits w : Nat) :
    (nbits % 8 = 0 ∧ w < 2 ^ nbits ∧ wordBytes nbits w = .ok (Machine.bePut w (nbits / 8))) ∨
    ((nbits % 8 ≠ 0 ∨ 2 ^ nbits ≤ w) ∧ wordBytes nbits w = .error .width) := by
  by_cases h : nbits % 8 = 0 ∧ w < 2 ^ nbits
  · exact .inl ⟨h.1, h.2, if_pos h⟩
  · exact .inr ⟨by omega, if_neg h⟩

/-- Received bytes of a kind belong to that kind's half of the opcode table. -/
@[simp] theorem Instr.port_ofKind (k : RespKind) (rx : List Byte) :
    (Instr.ofKind k rx).port = .response k := by
  cases k <;> rfl

end Sys2Proof
end

