-- ==== Sys2Proof/Laws/State.lean ====
section
/-!
SUPPORT. What each update of the state leaves in each field.
-/

namespace Sys2Proof.Machine

@[simp] theorem State.withAddr_addr (s : State) (a : Byte) : (s.withAddr a).addr = a := rfl
@[simp] theorem State.withAddr_buf (s : State) (a : Byte) : (s.withAddr a).buf = s.buf := rfl
@[simp] theorem State.withAddr_len (s : State) (a : Byte) : (s.withAddr a).len = s.len := rfl
@[simp] theorem State.withAddr_pending (s : State) (a : Byte) :
    (s.withAddr a).pending = s.pending := rfl
@[simp] theorem State.withAddr_results (s : State) (a : Byte) :
    (s.withAddr a).results = s.results := rfl

@[simp] theorem State.withPending_addr (s : State) (q : List Request) :
    (s.withPending q).addr = s.addr := rfl
@[simp] theorem State.withPending_buf (s : State) (q : List Request) :
    (s.withPending q).buf = s.buf := rfl
@[simp] theorem State.withPending_len (s : State) (q : List Request) :
    (s.withPending q).len = s.len := rfl
@[simp] theorem State.withPending_pending (s : State) (q : List Request) :
    (s.withPending q).pending = q := rfl
@[simp] theorem State.withPending_results (s : State) (q : List Request) :
    (s.withPending q).results = s.results := rfl

@[simp] theorem State.record_addr (s : State) (r : Result) : (s.record r).addr = s.addr := rfl
@[simp] theorem State.record_buf (s : State) (r : Result) : (s.record r).buf = s.buf := rfl
@[simp] theorem State.record_len (s : State) (r : Result) : (s.record r).len = s.len := rfl
@[simp] theorem State.record_pending (s : State) (r : Result) :
    (s.record r).pending = s.pending := rfl
@[simp] theorem State.record_results (s : State) (r : Result) :
    (s.record r).results = s.results ++ [r] := rfl
@[simp] theorem State.record_view (s : State) (r : Result) : (s.record r).view = s.view := rfl

@[simp] theorem State.clearFrame_addr (s : State) : s.clearFrame.addr = s.addr := rfl
@[simp] theorem State.clearFrame_buf (s : State) : s.clearFrame.buf = [] := rfl
@[simp] theorem State.clearFrame_len (s : State) : s.clearFrame.len = 0 := rfl
@[simp] theorem State.clearFrame_pending (s : State) : s.clearFrame.pending = s.pending := rfl
@[simp] theorem State.clearFrame_results (s : State) : s.clearFrame.results = s.results := rfl

@[simp] theorem State.putFrame_addr (s : State) (f : List Byte) : (s.putFrame f).addr = s.addr := rfl
@[simp] theorem State.putFrame_pending (s : State) (f : List Byte) :
    (s.putFrame f).pending = s.pending := rfl
@[simp] theorem State.putFrame_results (s : State) (f : List Byte) :
    (s.putFrame f).results = s.results := rfl
theorem State.putFrame_buf (s : State) (f : List Byte) :
    (s.putFrame f).buf = s.buf.writeAll 0
      (f ++ List.replicate (Config.bufCap - f.length) Config.fillByte) := rfl
theorem State.putFrame_len (s : State) (f : List Byte) (h : f.length ≤ Config.bufCap) :
    (s.putFrame f).len.val = f.length :=
  Nat.mod_eq_of_lt (Nat.lt_succ_of_le h)

end Sys2Proof.Machine
end

