-- ==== Sys2Proof/Laws/Ops.lean ====
section
/-!
SUPPORT. For each shared operation, once, everything it can do: the frame builder, the parser, one
operation of the host, one step.
-/

namespace Sys2Proof.Machine

open Sys2Proof.Safety

theorem State.record_def (s : State) (r : Result) :
    s.record r = { s with results := s.results ++ [r] } := rfl

theorem finish_eq (r : Result) (s : State) : finish r s = .next (s.record r) := rfl

theorem answer_eq (v : Value) (s : State) : answer v s = .next (s.record (.ok v)) := rfl

theorem raise_eq (e : Err) (s : State) : raise e s = .next (s.record (.err e)) := rfl

/-- The ten bytes `putFrame` writes. -/
theorem State.read_putFrame (s : State) {f : List Byte} (h : f.length ≤ Config.bufCap) (i : Nat) :
    (s.putFrame f).buf.read i =
      if i < Config.bufCap then f.getD i Config.fillByte else s.buf.read i := by
  have hl : (f ++ List.replicate (Config.bufCap - f.length) Config.fillByte).length
      = Config.bufCap := by simp; omega
  rw [State.putFrame_buf, Memory.read_writeAll, hl]
  by_cases hi : i < Config.bufCap
  · rw [if_pos ⟨Nat.zero_le _, by omega⟩, if_pos hi, Nat.sub_zero]
    by_cases hf : i < f.length
    · rw [List.getD_append _ _ _ _ hf, List.getD_eq_getElem _ _ hf, List.getD_eq_getElem _ _ hf]
    · rw [List.getD_append_right _ _ _ _ (by omega), List.getD_eq_default (n := i) _ _ (by omega),
        List.getD_eq_getElem _ _ (by simp; omega), List.getElem_replicate]
  · rw [if_neg (by omega), if_neg hi]

/-- The view of a frame just put is that frame. -/
theorem State.view_putFrame (s : State) {f : List Byte} (h : f.length ≤ Config.bufCap) :
    (s.putFrame f).view = f := by
  rw [State.view, State.putFrame_len s f h]
  refine Memory.readAll_eq fun i hi => ?_
  rw [Nat.zero_add, State.read_putFrame s h, if_pos (by omega), List.getD_eq_getElem _ _ hi]

theorem State.wf_putFrame {s : State} (hw : Memory.wf s.buf) {f : List Byte}
    (h : f.length ≤ Config.bufCap) : Memory.wf (s.putFrame f).buf :=
  Memory.wf_writeAll hw (by simp; omega)

/-- The frame builder, case by case: a payload too long, an invalid stored address, or the frame. -/
theorem buildFrame_cases (op : Byte) (p : List Byte) (s : State) :
    (Config.payloadMax < p.length ∧ buildFrame op p s = .fault .payloadTooLong) ∨
    (p.length ≤ Config.payloadMax ∧ addrValid s.addr = false ∧
      buildFrame op p s = .next (s.record (.err .invalidAddress))) ∨
    (p.length ≤ Config.payloadMax ∧ addrValid s.addr = true ∧
      buildFrame op p s = .next ((s.putFrame (frameOf s.addr op p)).record
        (.ok (.frame (frameOf s.addr op p))))) := by
  by_cases hp : Config.payloadMax < p.length
  · exact .inl ⟨hp, if_pos hp⟩
  · have hp' : p.length ≤ Config.payloadMax := Nat.le_of_not_lt hp
    have hl : (frameOf s.addr op p).length ≤ Config.bufCap := by
      rw [length_frameOf]; unfold Config.payloadMax at hp'; unfold Config.bufCap; omega
    cases ha : addrValid s.addr with
    | false => exact .inr (.inl ⟨hp', rfl, by simp [buildFrame, hp, ha, raise_eq]⟩)
    | true =>
      refine .inr (.inr ⟨hp', rfl, ?_⟩)
      simp only [buildFrame, if_neg hp, ha, if_true, answer_eq, State.view_putFrame s hl]

/-- A payload that fits, at a valid address: the builder leaves exactly that frame. -/
theorem buildFrame_emits {op : Byte} {p : List Byte} {s : State} (hp : p.length ≤ Config.payloadMax)
    (ha : addrValid s.addr = true) :
    ∃ t, buildFrame op p s = .next t ∧ Emits s (frameOf s.addr op p) t := by
  have hl : (frameOf s.addr op p).length ≤ Config.bufCap := by
    rw [length_frameOf]; unfold Config.payloadMax at hp; unfold Config.bufCap; omega
  rcases buildFrame_cases op p s with ⟨h, -⟩ | ⟨-, h, -⟩ | ⟨-, -, h⟩
  · exact absurd h (Nat.not_lt.mpr hp)
  · exact absurd ha (by simp [h])
  · exact ⟨_, h, {
      addr := rfl
      pending := rfl
      results := rfl
      len := State.putFrame_len s _ hl
      view := State.view_putFrame s hl
      inside := fun i hi => (State.read_putFrame s hl i).trans (if_pos hi)
      outside := fun i hi => (State.read_putFrame s hl i).trans (if_neg (Nat.not_lt.mpr hi)) }⟩

/-- The parser, case by case: bytes that are no frame, or the interpretation of a frame. -/
theorem parse_cases (k : RespKind) (f : List Byte → Result) (rx : List Byte) :
    (packetOk (Config.responseLength k) rx = false ∧ parse k f rx = .err .invalidPacket) ∨
    (packetOk (Config.responseLength k) rx = true ∧ parse k f rx = f rx) := by
  cases h : packetOk (Config.responseLength k) rx with
  | false => exact .inl ⟨rfl, if_neg (by simp [h])⟩
  | true => exact .inr ⟨rfl, if_pos h⟩

/-- The common checks: enough bytes, and the last of the first `n` is the checksum of the others. -/
theorem packetOk_iff (n : Nat) (rx : List Byte) :
    packetOk n rx = true ↔ n ≤ rx.length ∧ frameValid (rx.take n) = true := by
  simp [packetOk]

/-- One step, case by case: idle, or the oldest operation is taken. -/
theorem step_cases (s : State) :
    (s.pending = [] ∧ step s = .next s) ∨
    ∃ r rest, s.pending = r :: rest ∧ step s = serve r (s.withPending rest) := by
  unfold step
  cases h : s.pending with
  | nil => exact .inl ⟨rfl, rfl⟩
  | cons r rest => exact .inr ⟨r, rest, rfl, rfl⟩

/-- One operation, case by case: reset, an address accepted or refused, an instruction run, or what
is no instruction refused by name. -/
theorem serve_cases (r : Request) (s : State) :
    serve r s = .next ((s.clearFrame.withAddr Config.addrReset).record (.ok .unit)) ∨
    (∃ a, addrValid a = true ∧ serve r s = .next ((s.withAddr a).record (.ok .unit))) ∨
    (∃ a, r = .setAddress a ∧ addrValid a = false ∧
      serve r s = .next (s.record (.err .invalidAddress))) ∨
    (∃ i, serve r s = exec i s) ∨
    (∃ why, ((∃ p bytes, r = .words p bytes ∧ decode p bytes = .error why) ∨
        ∃ nbits w, r = .tableWord nbits w ∧ decodeWord nbits w = .error why) ∧
      serve r s = .refused (.undecodable why)) := by
  cases r with
  | reset => exact .inl rfl
  | setAddress a =>
    cases h : addrValid a with
    | true => exact .inr (.inl ⟨a, h, if_pos h⟩)
    | false => exact .inr (.inr (.inl ⟨a, rfl, h, if_neg (by simp [h])⟩))
  | op i => exact .inr (.inr (.inr (.inl ⟨i, rfl⟩)))
  | decode c rx => exact .inr (.inr (.inr (.inl ⟨_, rfl⟩)))
  | words p bytes =>
    cases h : Sys2Proof.decode p bytes with
    | ok i => exact .inr (.inr (.inr (.inl ⟨i, by simp only [serve, runDecoded, h]⟩)))
    | error why =>
      exact .inr (.inr (.inr (.inr
        ⟨why, .inl ⟨p, bytes, rfl, h⟩, by simp only [serve, runDecoded, h]⟩)))
  | tableWord nbits w =>
    cases h : decodeWord nbits w with
    | ok i => exact .inr (.inr (.inr (.inl ⟨i, by simp only [serve, runDecoded, h]⟩)))
    | error why =>
      exact .inr (.inr (.inr (.inr
        ⟨why, .inr ⟨nbits, w, rfl, h⟩, by simp only [serve, runDecoded, h]⟩)))

end Sys2Proof.Machine
end

