-- ==== Sys2Proof/Laws/PerInstr.lean ====
section
/-!
SUPPORT. Statements for all instructions, one lemma per constructor.
-/

namespace Sys2Proof.Laws.FrameShape

open Sys2Proof.Machine

/-- The word of a command has the length its format fixes and is a valid frame whose first two bytes
are the address and the opcode; the word of a response format is the received bytes (30_encoding.md
R60, R61, R66). Of an ill-formed command it says the shape of the model's own bytes: log entry 20. -/
def Statement (i : Instr) : Prop :=
  ∀ a : Byte,
    match i.cmd with
    | some c => (encode a i).length = c.format.length ∧ frameValid (encode a i) = true ∧
        (encode a i).take 2 = [a, Config.opcode c]
    | none => encode a i = i.payload

/-- A command's frame has the right shape as soon as its payload has the right length. -/
theorem of_payload {i : Instr} {c : Cmd} (hc : i.cmd = some c)
    (h : 3 + i.payload.length = c.format.length) : Statement i := by
  intro a
  simp only [hc, encode]
  exact ⟨by rw [length_frameOf, h], frameValid_frameOf _ _ _, rfl⟩

theorem readEncoder : Statement .readEncoder := of_payload rfl rfl
theorem readPulses : Statement .readPulses := of_payload rfl rfl
theorem readAngle : Statement .readAngle := of_payload rfl rfl
theorem readAngleError : Statement .readAngleError := of_payload rfl rfl
theorem readEnPin : Statement .readEnPin := of_payload rfl rfl
theorem readReleaseStatus : Statement .readReleaseStatus := of_payload rfl rfl
theorem readShaftStatus : Statement .readShaftStatus := of_payload rfl rfl
theorem setCurrentLimit (idx : BitVec 8) : Statement (.setCurrentLimit idx) := of_payload rfl rfl
theorem setSubdivision (sub : BitVec 16) : Statement (.setSubdivision sub) := of_payload rfl rfl
theorem setEnableLogic (e : EnableLogic) : Statement (.setEnableLogic e) := of_payload rfl rfl
theorem setDirection (d : Direction) : Statement (.setDirection d) := of_payload rfl rfl
theorem setAutoScreenOff (b : Bool) : Statement (.setAutoScreenOff b) := of_payload rfl rfl
theorem setStallProtection (b : Bool) : Statement (.setStallProtection b) := of_payload rfl rfl
theorem setInterpolation (b : Bool) : Statement (.setInterpolation b) := of_payload rfl rfl
theorem setZeroMode (z : ZeroMode) : Statement (.setZeroMode z) := of_payload rfl rfl
theorem setZeroSpeed (v : BitVec 8) : Statement (.setZeroSpeed v) := of_payload rfl rfl
theorem setZeroDirection (d : Direction) : Statement (.setZeroDirection d) := of_payload rfl rfl
theorem runMotor (d : Direction) (speed : BitVec 8) : Statement (.runMotor d speed) :=
  of_payload rfl rfl
theorem runPulses (d : Direction) (speed : BitVec 8) (pulses : BitVec 32) :
    Statement (.runPulses d speed pulses) := of_payload rfl rfl
theorem stop : Statement .stop := of_payload rfl rfl
theorem enableMotor (b : Bool) : Statement (.enableMotor b) := of_payload rfl rfl
theorem setKp (v : BitVec 16) : Statement (.setKp v) := of_payload rfl rfl
theorem setKi (v : BitVec 16) : Statement (.setKi v) := of_payload rfl rfl
theorem setKd (v : BitVec 16) : Statement (.setKd v) := of_payload rfl rfl
theorem setAcceleration (v : BitVec 16) : Statement (.setAcceleration v) := of_payload rfl rfl
theorem setMaxTorque (v : BitVec 16) : Statement (.setMaxTorque v) := of_payload rfl rfl
theorem saveClear (c : SaveClear) : Statement (.saveClear c) := of_payload rfl rfl
theorem decodeAck (rx : List Byte) : Statement (.decodeAck rx) := fun _ => rfl
theorem decodeEnPin (rx : List Byte) : Statement (.decodeEnPin rx) := fun _ => rfl
theorem decodeShaft (rx : List Byte) : Statement (.decodeShaft rx) := fun _ => rfl
theorem decodeI16 (rx : List Byte) : Statement (.decodeI16 rx) := fun _ => rfl
theorem decodeI32 (rx : List Byte) : Statement (.decodeI32 rx) := fun _ => rfl
theorem decodeEnc (rx : List Byte) : Statement (.decodeEnc rx) := fun _ => rfl

end Sys2Proof.Laws.FrameShape
end

