-- ==== Sys2Proof/Tests/Slice0.lean ====
section
/-!
SUPPORT. Tests: the well-formedness smoke test, every constructor's word written out from the spec's
encodings, one step per vector of spec/95_test_vectors.md, and a witness for the hypotheses of every
statement.
-/

namespace Sys2Proof.Tests

open Sys2Proof.Machine Sys2Proof.Safety

/-- The reset state at another address. -/
def stateAt (a : Byte) : State := State.reset.withAddr a

/-- 95_test_vectors.md 2.8, second row: the longest frame is in the buffer. -/
def stateFull : State :=
  State.reset.putFrame [0xE0#8, 0xFD#8, 0xFF#8, 0xFF#8, 0xFF#8, 0xFF#8, 0xD9#8]

/-- The reset state with operations presented. -/
def statePending (ops : List Request) : State := { State.reset with pending := ops }

/-- The next state of an outcome, if it has one. -/
def nextOf : Out → Option State
  | .next t => some t
  | _ => none

theorem next_of_nextOf {o : Out} {t : State} (h : nextOf o = some t) : o = .next t := by
  cases o <;> cases h
  rfl

/-- What a test looks at: the one result, `ADDR`, `LEN` and `BUF[0..9]`. -/
def seen : Out → Option (List Result × Byte × Nat × List Byte)
  | .next t => some (t.results, t.addr, t.len.val, t.buf.readAll 0 10)
  | _ => none

/-- What is seen after a command has returned its frame from `ADDR` = `a`. -/
def sent (a : Byte) (frame : List Byte) : Option (List Result × Byte × Nat × List Byte) :=
  some ([.ok (.frame frame)], a, frame.length, frame ++ List.replicate (10 - frame.length) 0x00#8)

/-- What is seen when a result is all that changed, from `stateFull`. -/
def kept (r : Result) : Option (List Result × Byte × Nat × List Byte) :=
  some ([r], 0xE0#8, 7,
    [0xE0#8, 0xFD#8, 0xFF#8, 0xFF#8, 0xFF#8, 0xFF#8, 0xD9#8, 0x00#8, 0x00#8, 0x00#8])

/-- What is seen after decoding in a context, from `stateFull`. -/
def decoded (c : Cmd) (rx : List Byte) : Option (List Result × Byte × Nat × List Byte) :=
  seen (serve (.decode c rx) stateFull)

/-! Well-formedness: each check refuses a term just outside its range and lets the bound pass. -/

theorem test_wellFormed_setCurrentLimit :
    Instr.WellFormed (.setCurrentLimit 15) ∧ ¬ Instr.WellFormed (.setCurrentLimit 16) := by decide

theorem test_wellFormed_setSubdivision_low :
    Instr.WellFormed (.setSubdivision 1) ∧ ¬ Instr.WellFormed (.setSubdivision 0) := by decide

theorem test_wellFormed_setSubdivision_high :
    Instr.WellFormed (.setSubdivision 256) ∧ ¬ Instr.WellFormed (.setSubdivision 257) := by decide

theorem test_wellFormed_setZeroSpeed :
    Instr.WellFormed (.setZeroSpeed 4) ∧ ¬ Instr.WellFormed (.setZeroSpeed 5) := by decide

theorem test_wellFormed_runMotor :
    Instr.WellFormed (.runMotor .counterClockwise 0x7F) ∧
      ¬ Instr.WellFormed (.runMotor .counterClockwise 0x80) := by decide

theorem test_wellFormed_runPulses_speed :
    Instr.WellFormed (.runPulses .clockwise 0x7F 0xFFFFFF) ∧
      ¬ Instr.WellFormed (.runPulses .clockwise 0x80 0xFFFFFF) := by decide

theorem test_wellFormed_runPulses_pulses :
    Instr.WellFormed (.runPulses .clockwise 0x7F 0) ∧
      ¬ Instr.WellFormed (.runPulses .clockwise 0x7F 0x1000000) := by decide

theorem test_wellFormed_setMaxTorque :
    Instr.WellFormed (.setMaxTorque 0x4B0) ∧ ¬ Instr.WellFormed (.setMaxTorque 0x4B1) := by decide

/-! Every constructor's word, byte by byte from 30_encoding.md R60 to R66 and 95_test_vectors.md. -/

theorem test_word_readEncoder : readBack [0xE0#8, 0x30#8, 0x10#8] = .ok .readEncoder := rfl

theorem test_word_readPulses : readBack [0xE0#8, 0x33#8, 0x13#8] = .ok .readPulses := rfl

theorem test_word_readAngle : readBack [0xE0#8, 0x36#8, 0x16#8] = .ok .readAngle := rfl

theorem test_word_readAngleError :
    readBack [0xE0#8, 0x39#8, 0x19#8] = .ok .readAngleError := rfl

theorem test_word_readEnPin : readBack [0xE0#8, 0x3A#8, 0x1A#8] = .ok .readEnPin := rfl

theorem test_word_readReleaseStatus :
    readBack [0xE0#8, 0x3D#8, 0x1D#8] = .ok .readReleaseStatus := rfl

theorem test_word_readShaftStatus :
    readBack [0xE0#8, 0x3E#8, 0x1E#8] = .ok .readShaftStatus := rfl

theorem test_word_setCurrentLimit :
    readBack [0xE0#8, 0x83#8, 0x0F#8, 0x72#8] = .ok (.setCurrentLimit 15) := rfl

theorem test_word_setSubdivision :
    readBack [0xE0#8, 0x84#8, 0x25#8, 0x89#8] = .ok (.setSubdivision 37) := rfl

theorem test_word_setEnableLogic :
    readBack [0xE0#8, 0x85#8, 0x02#8, 0x67#8] = .ok (.setEnableLogic .alwaysOn) := rfl

theorem test_word_setDirection :
    readBack [0xE0#8, 0x86#8, 0x01#8, 0x67#8] = .ok (.setDirection .counterClockwise) := rfl

theorem test_word_setAutoScreenOff :
    readBack [0xE0#8, 0x87#8, 0x01#8, 0x68#8] = .ok (.setAutoScreenOff true) := rfl

theorem test_word_setStallProtection :
    readBack [0xE0#8, 0x88#8, 0x00#8, 0x68#8] = .ok (.setStallProtection false) := rfl

theorem test_word_setInterpolation :
    readBack [0xE0#8, 0x89#8, 0x01#8, 0x6A#8] = .ok (.setInterpolation true) := rfl

theorem test_word_setZeroMode :
    readBack [0xE0#8, 0x90#8, 0x02#8, 0x72#8] = .ok (.setZeroMode .nearestMode) := rfl

theorem test_word_setZeroSpeed :
    readBack [0xE0#8, 0x92#8, 0x04#8, 0x76#8] = .ok (.setZeroSpeed 4) := rfl

theorem test_word_setZeroDirection :
    readBack [0xE0#8, 0x93#8, 0x01#8, 0x74#8] = .ok (.setZeroDirection .counterClockwise) := rfl

theorem test_word_runMotor :
    readBack [0xE0#8, 0xF6#8, 0x8A#8, 0x60#8] = .ok (.runMotor .counterClockwise 10) := rfl

theorem test_word_runPulses :
    readBack [0xE0#8, 0xFD#8, 0x81#8, 0x01#8, 0x02#8, 0x03#8, 0x64#8] =
      .ok (.runPulses .counterClockwise 1 0x010203) := rfl

theorem test_word_stop : readBack [0xE0#8, 0xF7#8, 0xD7#8] = .ok .stop := rfl

theorem test_word_enableMotor :
    readBack [0xE0#8, 0xF3#8, 0x01#8, 0xD4#8] = .ok (.enableMotor true) := rfl

theorem test_word_setKp :
    readBack [0xE0#8, 0xA1#8, 0x06#8, 0x50#8, 0xD7#8] = .ok (.setKp 0x0650) := rfl

theorem test_word_setKi :
    readBack [0xE0#8, 0xA2#8, 0x12#8, 0x34#8, 0xC8#8] = .ok (.setKi 0x1234) := rfl

theorem test_word_setKd :
    readBack [0xE0#8, 0xA3#8, 0xBE#8, 0xEF#8, 0x30#8] = .ok (.setKd 0xBEEF) := rfl

theorem test_word_setAcceleration :
    readBack [0xE0#8, 0xA4#8, 0x01#8, 0x1E#8, 0xA3#8] = .ok (.setAcceleration 0x011E) := rfl

theorem test_word_setMaxTorque :
    readBack [0xE0#8, 0xA5#8, 0x04#8, 0xB0#8, 0x39#8] = .ok (.setMaxTorque 0x04B0) := rfl

theorem test_word_saveClear :
    readBack [0xE0#8, 0xFF#8, 0xCA#8, 0xA9#8] = .ok (.saveClear .clear) := rfl

theorem test_word_decodeAck :
    decode (.response .ack) [0xE0#8, 0x01#8, 0xE1#8] =
      .ok (.decodeAck [0xE0#8, 0x01#8, 0xE1#8]) := rfl

theorem test_word_decodeEnPin :
    decode (.response .enPin) [0xE0#8, 0x02#8, 0xE2#8] =
      .ok (.decodeEnPin [0xE0#8, 0x02#8, 0xE2#8]) := rfl

theorem test_word_decodeShaft :
    decode (.response .shaft) [0xE0#8, 0x02#8, 0xE2#8] =
      .ok (.decodeShaft [0xE0#8, 0x02#8, 0xE2#8]) := rfl

theorem test_word_decodeI16 :
    decode (.response .i16) [0xE0#8, 0xFF#8, 0x38#8, 0x17#8] =
      .ok (.decodeI16 [0xE0#8, 0xFF#8, 0x38#8, 0x17#8]) := rfl

theorem test_word_decodeI32 :
    decode (.response .i32) [0xE0#8, 0x00#8, 0x00#8, 0x0C#8, 0x80#8, 0x6C#8] =
      .ok (.decodeI32 [0xE0#8, 0x00#8, 0x00#8, 0x0C#8, 0x80#8, 0x6C#8]) := rfl

theorem test_word_decodeEnc :
    decode (.response .enc) [0xE0#8, 0x00#8, 0x00#8, 0x00#8, 0x02#8, 0x12#8, 0x34#8, 0x28#8] =
      .ok (.decodeEnc [0xE0#8, 0x00#8, 0x00#8, 0x00#8, 0x02#8, 0x12#8, 0x34#8, 0x28#8]) := rfl

theorem test_table_word_decodeAck :
    decodeTableWord 24 0xE001E1 = some (.decodeAck [0xE0#8, 0x01#8, 0xE1#8]) := by decide

theorem test_table_word_decodeI16 :
    decodeTableWord 32 0xE000C8A8 = some (.decodeI16 [0xE0#8, 0x00#8, 0xC8#8, 0xA8#8]) := by decide

theorem test_table_word_decodeI32 :
    decodeTableWord 48 0xE000000C806C =
      some (.decodeI32 [0xE0#8, 0x00#8, 0x00#8, 0x0C#8, 0x80#8, 0x6C#8]) := by decide

theorem test_table_word_decodeEnc :
    decodeTableWord 64 0xE000000002123428 =
      some (.decodeEnc [0xE0#8, 0x00#8, 0x00#8, 0x00#8, 0x02#8, 0x12#8, 0x34#8, 0x28#8]) :=
    by decide

theorem test_table_word_saveClear_operand : decodeTableWord 32 0x00FF0000 = none := by decide

theorem test_table_word_fetched :
    step (State.reset.withFetchWord 32 0xE0F301D4) = exec (.enableMotor true) State.reset := rfl

/-- 60_exceptions.md R222: a number that does not fit its word is refused by name. -/
theorem test_table_word_too_large :
    decodeTableWord 24 0x1E0F7D7 = none ∧ decodeTableWord 24 0x1E001E1 = none ∧
    wordBytes 24 0x1000000 = .error .width ∧ wordBytes 24 0xFFFFFF = .ok [0xFF#8, 0xFF#8, 0xFF#8] :=
  ⟨rfl, rfl, rfl, rfl⟩

theorem test_table_word_not_whole_bytes :
    decodeTableWord 25 0xE0F7D7 = none ∧
    step (State.reset.withFetchWord 25 0xE0F7D7) = .refused (.undecodable .width) := ⟨rfl, rfl⟩

/-! Words that are no command, 30_encoding.md R61 and R68. -/

theorem test_refused_opcode : readBack [0xE0#8, 0xF4#8, 0xD4#8] = .error .opcode := rfl

theorem test_refused_length : readBack [0xE0#8, 0xF7#8, 0x00#8, 0xD7#8] = .error .length := rfl

theorem test_refused_saveClear :
    readBack [0xE0#8, 0xFF#8, 0xC9#8, 0xA8#8] = .error .operand := rfl

theorem test_refused_bool : readBack [0xE0#8, 0xF3#8, 0x02#8, 0xD5#8] = .error .operand := rfl

theorem test_refused_direction :
    readBack [0xE0#8, 0x86#8, 0x02#8, 0x68#8] = .error .operand := rfl

theorem test_refused_enableLogic :
    readBack [0xE0#8, 0x85#8, 0x03#8, 0x68#8] = .error .operand := rfl

theorem test_refused_zeroMode :
    readBack [0xE0#8, 0x90#8, 0x03#8, 0x73#8] = .error .operand := rfl

theorem test_refused_currentLimit :
    readBack [0xE0#8, 0x83#8, 0x10#8, 0x73#8] = .error .operand := rfl

theorem test_refused_zeroSpeed :
    readBack [0xE0#8, 0x92#8, 0x05#8, 0x77#8] = .error .operand := rfl

theorem test_refused_torque :
    readBack [0xE0#8, 0xA5#8, 0x04#8, 0xB1#8, 0x3A#8] = .error .operand := rfl

theorem test_refused_checksum : readBack [0xE0#8, 0xF7#8, 0xD8#8] = .error .checksum := rfl

theorem test_refused_address : readBack [0xEA#8, 0xF7#8, 0xE1#8] = .error .address := rfl

/-! Function blocks, 95_test_vectors.md 2.1. -/

theorem test_chk8 :
    chk8 [0xFF#8, 0x01#8] = 0x00#8 ∧ chk8 (List.replicate 9 0xFF#8) = 0xF7#8 := by decide

theorem test_frameValid :
    frameValid [] = false ∧
      frameValid [0x00#8] = true ∧
      frameValid [0xE0#8, 0xF7#8, 0xD8#8] = false := by decide

theorem test_bePut : bePut 0x010203 3 = [0x01#8, 0x02#8, 0x03#8] := rfl

theorem test_beGetS :
    beGetS [0x80#8, 0x00#8] = -32768 ∧ beGetS [0x7F#8, 0xFF#8] = 32767 := by decide

theorem test_memWrite :
    (memWrite [] 2 2 0x1234).readAll 0 5 = [0x00#8, 0x00#8, 0x12#8, 0x34#8, 0x00#8] := by decide

theorem test_error_codes :
    [Err.invalidAddress, .invalidSpeed, .invalidCurrentLimit, .invalidSubdivision, .invalidTorque,
      .invalidPulseCount, .invalidPacket, .invalidResponse, .deviceReportedFailure].map errCode =
      [1, 2, 3, 4, 5, 6, 7, 8, 9] := rfl

theorem test_response_lengths :
    [RespKind.ack, .enPin, .shaft, .i16, .i32, .enc].map Config.responseLength =
      [3, 3, 3, 4, 6, 8] := rfl

/-! One step of each instruction, 95_test_vectors.md 2.2 to 2.6. -/

theorem test_step_readEncoder :
    seen (exec .readEncoder (stateAt 0xE9#8)) =
      sent 0xE9#8 [0xE9#8, 0x30#8, 0x19#8] := by decide

theorem test_step_readPulses :
    seen (exec .readPulses (stateAt 0xE1#8)) =
      sent 0xE1#8 [0xE1#8, 0x33#8, 0x14#8] := by decide

theorem test_step_readAngle :
    seen (exec .readAngle (stateAt 0xE9#8)) =
      sent 0xE9#8 [0xE9#8, 0x36#8, 0x1F#8] := by decide

theorem test_step_readAngleError :
    seen (exec .readAngleError (stateAt 0xE9#8)) =
      sent 0xE9#8 [0xE9#8, 0x39#8, 0x22#8] := by decide

theorem test_step_readEnPin :
    seen (exec .readEnPin (stateAt 0xE1#8)) =
      sent 0xE1#8 [0xE1#8, 0x3A#8, 0x1B#8] := by decide

theorem test_step_readReleaseStatus :
    seen (exec .readReleaseStatus (stateAt 0xE9#8)) =
      sent 0xE9#8 [0xE9#8, 0x3D#8, 0x26#8] := by decide

theorem test_step_readShaftStatus :
    seen (exec .readShaftStatus (stateAt 0xE1#8)) =
      sent 0xE1#8 [0xE1#8, 0x3E#8, 0x1F#8] := by decide

theorem test_step_setCurrentLimit :
    seen (exec (.setCurrentLimit 6) (stateAt 0xE0#8)) =
      sent 0xE0#8 [0xE0#8, 0x83#8, 0x06#8, 0x69#8] := by decide

theorem test_step_setSubdivision :
    seen (exec (.setSubdivision 256) (stateAt 0xE9#8)) =
      sent 0xE9#8 [0xE9#8, 0x84#8, 0x00#8, 0x6D#8] := by decide

theorem test_step_setEnableLogic :
    seen (exec (.setEnableLogic .high) (stateAt 0xE0#8)) =
      sent 0xE0#8 [0xE0#8, 0x85#8, 0x01#8, 0x66#8] := by decide

theorem test_step_setDirection :
    seen (exec (.setDirection .counterClockwise) (stateAt 0xE0#8)) =
      sent 0xE0#8 [0xE0#8, 0x86#8, 0x01#8, 0x67#8] := by decide

theorem test_step_setAutoScreenOff :
    seen (exec (.setAutoScreenOff false) (stateAt 0xE0#8)) =
      sent 0xE0#8 [0xE0#8, 0x87#8, 0x00#8, 0x67#8] := by decide

theorem test_step_setStallProtection :
    seen (exec (.setStallProtection true) (stateAt 0xE0#8)) =
      sent 0xE0#8 [0xE0#8, 0x88#8, 0x01#8, 0x69#8] := by decide

theorem test_step_setInterpolation :
    seen (exec (.setInterpolation false) (stateAt 0xE0#8)) =
      sent 0xE0#8 [0xE0#8, 0x89#8, 0x00#8, 0x69#8] := by decide

theorem test_step_setZeroMode :
    seen (exec (.setZeroMode .directionMode) (stateAt 0xE0#8)) =
      sent 0xE0#8 [0xE0#8, 0x90#8, 0x01#8, 0x71#8] := by decide

theorem test_step_setZeroSpeed :
    seen (exec (.setZeroSpeed 2) (stateAt 0xE0#8)) =
      sent 0xE0#8 [0xE0#8, 0x92#8, 0x02#8, 0x74#8] := by decide

theorem test_step_setZeroDirection :
    seen (exec (.setZeroDirection .clockwise) (stateAt 0xE0#8)) =
      sent 0xE0#8 [0xE0#8, 0x93#8, 0x00#8, 0x73#8] := by decide

theorem test_step_runMotor :
    seen (exec (.runMotor .counterClockwise 0x7F) (stateAt 0xE0#8)) =
      sent 0xE0#8 [0xE0#8, 0xF6#8, 0xFF#8, 0xD5#8] := by decide

theorem test_step_runPulses :
    seen (exec (.runPulses .counterClockwise 0x7F 0xFFFFFF) (stateAt 0xE9#8)) =
      sent 0xE9#8 [0xE9#8, 0xFD#8, 0xFF#8, 0xFF#8, 0xFF#8, 0xFF#8, 0xE2#8] := by decide

theorem test_step_stop :
    seen (exec .stop (stateAt 0xE9#8)) =
      sent 0xE9#8 [0xE9#8, 0xF7#8, 0xE0#8] := by decide

theorem test_step_enableMotor :
    seen (exec (.enableMotor true) (stateAt 0xE9#8)) =
      sent 0xE9#8 [0xE9#8, 0xF3#8, 0x01#8, 0xDD#8] := by decide

theorem test_step_setKp :
    seen (exec (.setKp 0xFFFF) (stateAt 0xE0#8)) =
      sent 0xE0#8 [0xE0#8, 0xA1#8, 0xFF#8, 0xFF#8, 0x7F#8] := by decide

theorem test_step_setKi :
    seen (exec (.setKi 1) (stateAt 0xE0#8)) =
      sent 0xE0#8 [0xE0#8, 0xA2#8, 0x00#8, 0x01#8, 0x83#8] := by decide

theorem test_step_setKd :
    seen (exec (.setKd 0x00FF) (stateAt 0xE0#8)) =
      sent 0xE0#8 [0xE0#8, 0xA3#8, 0x00#8, 0xFF#8, 0x82#8] := by decide

theorem test_step_setAcceleration :
    seen (exec (.setAcceleration 0xFFFF) (stateAt 0xE0#8)) =
      sent 0xE0#8 [0xE0#8, 0xA4#8, 0xFF#8, 0xFF#8, 0x82#8] := by decide

theorem test_step_setMaxTorque :
    seen (exec (.setMaxTorque 0x04B0) (stateAt 0xE9#8)) =
      sent 0xE9#8 [0xE9#8, 0xA5#8, 0x04#8, 0xB0#8, 0x42#8] := by decide

theorem test_step_saveClear :
    seen (exec (.saveClear .save) (stateAt 0xE9#8)) =
      sent 0xE9#8 [0xE9#8, 0xFF#8, 0xC8#8, 0xB0#8] := by decide

/-! Arguments out of range: the error, and the state as it was (60_exceptions.md R212). -/

theorem test_error_setCurrentLimit :
    seen (exec (.setCurrentLimit 16) stateFull) = kept (.err .invalidCurrentLimit) := by decide

theorem test_error_setSubdivision :
    seen (exec (.setSubdivision 257) stateFull) = kept (.err .invalidSubdivision) := by decide

theorem test_error_setZeroSpeed :
    seen (exec (.setZeroSpeed 5) stateFull) = kept (.err .invalidSpeed) := by decide

theorem test_error_runMotor :
    seen (exec (.runMotor .clockwise 0x80) stateFull) = kept (.err .invalidSpeed) := by decide

theorem test_error_runPulses :
    seen (exec (.runPulses .clockwise 0x80 0x1000000) stateFull) =
      kept (.err .invalidSpeed) := by decide

theorem test_error_setMaxTorque :
    seen (exec (.setMaxTorque 0x4B1) stateFull) = kept (.err .invalidTorque) := by decide

/-! Decoding, 95_test_vectors.md 1.2 and 2.6. -/

theorem test_decode_ack :
    decoded .enableMotor [0xE0#8, 0x01#8, 0xE1#8] = kept (.ok .ack) := by decide

theorem test_decode_ack_failure :
    decoded .readReleaseStatus [0xE0#8, 0x00#8, 0xE0#8] =
      kept (.err .deviceReportedFailure) := by decide

theorem test_decode_ack_unknown :
    decoded .enableMotor [0xE0#8, 0x02#8, 0xE2#8] = kept (.err .invalidResponse) := by decide

theorem test_decode_enPin :
    decoded .readEnPin [0xE0#8, 0x02#8, 0xE2#8] = kept (.ok (.enPin .disabled)) := by decide

theorem test_decode_enPin_unknown :
    decoded .readEnPin [0xE0#8, 0x00#8, 0xE0#8] = kept (.err .invalidResponse) := by decide

theorem test_decode_shaft :
    decoded .readShaftStatus [0xE0#8, 0x01#8, 0xE1#8] = kept (.ok (.shaft .blocked)) := by decide

theorem test_decode_shaft_unknown :
    decoded .readShaftStatus [0xE0#8, 0xFF#8, 0xDF#8] = kept (.err .invalidResponse) := by decide

theorem test_decode_i16 :
    decoded .readAngleError [0xE0#8, 0x80#8, 0x00#8, 0x60#8] =
      kept (.ok (.int16 (-32768))) := by decide

theorem test_decode_i16_short :
    decoded .readAngleError [0xE0#8, 0xFF#8, 0x38#8] = kept (.err .invalidPacket) := by decide

theorem test_decode_i32 :
    decoded .readPulses [0xE0#8, 0xFF#8, 0xFF#8, 0xF3#8, 0x80#8, 0x51#8] =
      kept (.ok (.int32 (-3200))) := by decide

theorem test_decode_i32_checksum :
    decoded .readAngle [0xE0#8, 0x00#8, 0x01#8, 0x00#8, 0x00#8, 0xE0#8] =
      kept (.err .invalidPacket) := by decide

theorem test_decode_enc :
    decoded .readEncoder [0xE0#8, 0xFF#8, 0xFF#8, 0xFF#8, 0xFE#8, 0x3F#8, 0xFF#8, 0x19#8] =
      kept (.ok (.encoder (-2) 0x3FFF)) := by decide

theorem test_decode_enc_longer :
    decoded .readEncoder [0xE0#8, 0x00#8, 0x00#8, 0x00#8, 0x02#8, 0x12#8, 0x34#8, 0x28#8, 0x00#8] =
      kept (.ok (.encoder 2 0x1234)) := by decide

theorem test_decode_empty : decoded .stop [] = kept (.err .invalidPacket) := by decide

/-! State corner cases, 95_test_vectors.md 2.8. -/

theorem test_shrinking_frame :
    seen (exec .readEncoder stateFull) = sent 0xE0#8 [0xE0#8, 0x30#8, 0x10#8] := by decide

theorem test_setAddress_keeps_frame :
    (seen (serve (.setAddress 0xE4#8) stateFull)).map (fun x => (x.1, x.2.1, x.2.2.1)) =
      some ([.ok .unit], 0xE4#8, 7) := by decide

theorem test_setAddress_refused :
    seen (serve (.setAddress 0xEA#8) stateFull) = kept (.err .invalidAddress) := by decide

theorem test_reset :
    seen (serve .reset (stateFull.withAddr 0xE4#8)) =
      some ([.ok .unit], 0xE0#8, 0, List.replicate 10 0x00#8) := by decide

/-! Witnesses: a state and operands that meet all hypotheses of a statement together, one for each
clause and at the bounds of its range. -/

theorem test_witness_ChecksumLaws :
    [0xFF#8, 0x01#8].Perm [0x01#8, 0xFF#8] ∧ chk8 [0xFF#8, 0x01#8] = chk8 [0x01#8, 0xFF#8] := by
  decide

theorem test_witness_ChecksumSeesOneChangedByte :
    0x34#8 ≠ 0x35#8 ∧ chk8 [0x12#8, 0x34#8, 0x28#8] ≠ chk8 [0x12#8, 0x35#8, 0x28#8] := by decide

theorem test_witness_FrameValidIffLastByteIsChecksum :
    frameValid ([] ++ [chk8 []]) = true ∧ frameValid [] = false := by decide

theorem test_witness_BigEndianPutLayout :
    (0 < 3 ∧ (memWrite [] 2 3 0xABCDEF).read (2 + 0) = BitVec.ofNat 8 (0xABCDEF >>> 16)) ∧
    (2 < 3 ∧ (memWrite [] 2 3 0xABCDEF).read (2 + 2) = BitVec.ofNat 8 (0xABCDEF >>> 0)) ∧
    (1 < 2 ∧ (memWrite [(1, 0x55#8)] 2 3 0xABCDEF).read 1 = 0x55#8) ∧
    (2 + 3 ≤ 5 ∧ (memWrite [(5, 0x66#8)] 2 3 0xABCDEF).read 5 = 0x66#8) := by decide

theorem test_witness_BigEndianRoundTrip :
    0xFFFFFF < 2 ^ (8 * 3) ∧ 0 < 2 ^ (8 * 0) ∧ beGetU (bePut 0xFFFFFF 3) = 0xFFFFFF := by decide

theorem test_witness_SignedFieldsAreTwosComplement :
    (128 ≤ (0x80#8).toNat ∧ beGetS [0x80#8] = -128) ∧
    (¬ 128 ≤ (0x7F#8).toNat ∧ beGetS [0x7F#8] = 127) ∧
    (0 < 2 ∧ -(2 : Int) ^ 15 ≤ -32768 ∧ (-32768 : Int) < 2 ^ 15) ∧ (32767 : Int) < 2 ^ 15 :=
  ⟨by decide, by decide, by norm_num, by norm_num⟩

theorem test_witness_EnumerationTablesAreBijections :
    (AckStatus.ofByte 0x01#8 = some .success ∧ AckStatus.toByte .success = 0x01#8) ∧
    (EnPinStatus.ofByte 0x00#8 = none ∧ ∀ p, EnPinStatus.toByte p ≠ 0x00#8) := by
  refine ⟨by decide, by decide, fun p => ?_⟩
  cases p <;> decide

theorem test_witness_PackedDirectionAndSpeedReadBack :
    (0x7F#8).toNat ≤ 0x7F ∧ packDs .counterClockwise 0x7F#8 = 0xFF#8 ∧
    (0x00#8).toNat ≤ 0x7F ∧ packDs .counterClockwise 0x00#8 = 0x80#8 := by decide

theorem test_witness_DecodeOfEncode :
    Instr.WellFormed (.setSubdivision 256) ∧ Instr.WellFormed .stop ∧
    Instr.WellFormed (.runPulses .counterClockwise 0x7F 0xFFFFFF) ∧
    Instr.WellFormed (.decodeAck []) := by decide

theorem test_witness_ReadBackAcceptsExactlyEmittableFrames :
    readBack [0xE9#8, 0xF7#8, 0xE0#8] = .ok .stop ∧ addrValid 0xE9#8 = true ∧
    [0xE9#8, 0xF7#8, 0xE0#8] = encode 0xE9#8 .stop := ⟨rfl, rfl, rfl⟩

theorem test_witness_DecodedInstructionsAreWellFormed :
    decode .command [0xE0#8, 0x84#8, 0x00#8, 0x64#8] = .ok (.setSubdivision 256) ∧
    decode (.response .enc) [] = .ok (.decodeEnc []) := ⟨rfl, rfl⟩

theorem test_witness_OpcodesAreDistinct :
    Config.opcode .stop = Config.opcode .stop ∧ Config.opcode .setKp ≠ Config.opcode .setKi := by
  decide

theorem test_witness_StepRunsDecodedWord :
    (statePending [.words .command [0xE0#8, 0xF7#8, 0xD7#8]]).pending =
      .words .command [0xE0#8, 0xF7#8, 0xD7#8] :: [] ∧
    decode .command [0xE0#8, 0xF7#8, 0xD7#8] = .ok .stop ∧
    (statePending [.tableWord 24 0xE0F7D7]).pending = .tableWord 24 0xE0F7D7 :: [] ∧
    decodeTableWord 24 0xE0F7D7 = some .stop := ⟨rfl, rfl, rfl, rfl⟩

theorem test_witness_StepServesOldestOperation :
    State.reset.pending = [] ∧ (statePending [.reset]).pending = .reset :: [] ∧
    (statePending [.op .stop]).pending = .op .stop :: [] ∧
    decode .command [0xE0#8, 0xF7#8, 0xD7#8] = .ok .stop ∧ decode .command [] = .error .length ∧
    decodeWord 24 0xE0F7D7 = .ok .stop ∧ decodeWord 24 0x1E0F7D7 = .error .width :=
  ⟨rfl, rfl, rfl, rfl, rfl, rfl, rfl⟩

theorem test_witness_DecodeContextSelectsKind :
    (statePending [.decode .readAngle []]).pending = .decode .readAngle [] :: [] := rfl

theorem test_witness_StepTakesOneOperationAndReturnsOneResult :
    step State.reset = .next State.reset ∧ ∃ t, step (statePending [.op .stop]) = .next t :=
  ⟨rfl, _, rfl⟩

theorem test_witness_NothingStopsButUndecodableWords :
    step (statePending [.words .command []]) = .refused (.undecodable .length) ∧
    step (statePending [.tableWord 24 0x1E0F7D7]) = .refused (.undecodable .width) := ⟨rfl, rfl⟩

theorem test_witness_ResetOperationRestoresInitialState :
    ({ stateFull with pending := [.reset, .op .stop] } : State).pending =
      .reset :: [.op .stop] := rfl

theorem test_witness_SetAddressWritesOnlyValidAddresses :
    (statePending [.setAddress 0xE0#8]).pending = .setAddress 0xE0#8 :: [] ∧
    (0xE0 ≤ (0xE0#8).toNat ∧ (0xE9#8).toNat ≤ 0xE9) ∧ (0xDF#8).toNat < 0xE0 ∧
    0xE9 < (0xEA#8).toNat ∧
    seen (step (statePending [.setAddress 0xE9#8])) =
      some ([.ok .unit], 0xE9#8, 0, List.replicate 10 0x00#8) ∧
    seen (step (statePending [.setAddress 0xDF#8])) =
      some ([.err .invalidAddress], 0xE0#8, 0, List.replicate 10 0x00#8) := by decide

theorem test_witness_ConstructionWithAddress :
    (statePending [.reset, .setAddress 0xE3#8]).pending = Request.new 0xE3#8 ∧
    addrValid 0xE3#8 = true ∧ addrValid 0xEA#8 = false := by decide

/-- The hypothesis of the statements about the frames of a command, at both ends of the range. -/
theorem test_witness_CommandsEmitFrames :
    addrValid (stateAt 0xE0#8).addr = true ∧ addrValid (stateAt 0xE9#8).addr = true := by decide

theorem test_witness_CheckedConfigurationCommandsEmitFrames :
    (0x00#8).toNat ≤ 15 ∧ (0x0F#8).toNat ≤ 15 ∧ 1 ≤ (1#16).toNat ∧ (256#16).toNat ≤ 256 ∧
    (0x04#8).toNat ≤ 4 := by decide

theorem test_witness_EnumeratedConfigurationCommandsEmitFrames :
    (EnableLogic.alwaysOn, 0x02#8) ∈
      [(EnableLogic.low, 0x00#8), (.high, 0x01#8), (.alwaysOn, 0x02#8)] ∧
    (Direction.clockwise, 0x00#8) ∈ [(Direction.clockwise, 0x00#8), (.counterClockwise, 0x01#8)] ∧
    (false, 0x00#8) ∈ [(true, 0x01#8), (false, 0x00#8)] ∧
    (ZeroMode.nearestMode, 0x02#8) ∈
      [(ZeroMode.disabled, 0x00#8), (.directionMode, 0x01#8), (.nearestMode, 0x02#8)] := by decide

theorem test_witness_RunMotorPacksDirectionAndSpeed :
    ((0x7F#8).toNat ≤ 0x7F ∧ addrValid State.reset.addr = true) ∧
    ((0x00#8).toNat ≤ 0x7F ∧ addrValid (stateAt 0xEA#8).addr = false ∧
      seen (exec (.runMotor .clockwise 0x00) (stateAt 0xEA#8)) =
        some ([.err .invalidAddress], 0xEA#8, 0, List.replicate 10 0x00#8)) ∧
    (0x7F < (0x80#8).toNat ∧
      seen (exec (.runMotor .counterClockwise 0x80) stateFull) = kept (.err .invalidSpeed)) := by
  decide

theorem test_witness_RunPulsesEmitsSevenBytes :
    addrValid State.reset.addr = true ∧ (0x7F#8).toNat ≤ 0x7F ∧ (0xFFFFFF#32).toNat ≤ 0xFFFFFF ∧
    seen (exec (.runPulses .clockwise 0x00 0) State.reset) =
      sent 0xE0#8 [0xE0#8, 0xFD#8, 0x00#8, 0x00#8, 0x00#8, 0x00#8, 0xDD#8] := by decide

theorem test_witness_StopEmitsShortestFrame :
    addrValid State.reset.addr = true ∧ addrValid (stateAt 0xEA#8).addr = false ∧
    seen (exec .stop (stateAt 0xDF#8)) =
      some ([.err .invalidAddress], 0xDF#8, 0, List.replicate 10 0x00#8) := by decide

theorem test_witness_EnableMotorEmitsOnOffByte :
    addrValid State.reset.addr = true ∧
    seen (exec (.enableMotor false) State.reset) =
      sent 0xE0#8 [0xE0#8, 0xF3#8, 0x00#8, 0xD3#8] := by decide

theorem test_witness_TuningCommandsEmitBigEndianValue :
    addrValid State.reset.addr = true ∧ 0x04#8 = BitVec.ofNat 8 ((0x4B0#16).toNat / 256) ∧
    0xB0#8 = BitVec.ofNat 8 ((0x4B0#16).toNat % 256) ∧ (0x4B0#16).toNat ≤ 0x4B0 := by decide

theorem test_witness_SaveClearEmitsSentinel :
    addrValid State.reset.addr = true ∧
    seen (exec (.saveClear .clear) State.reset) =
      sent 0xE0#8 [0xE0#8, 0xFF#8, 0xCA#8, 0xA9#8] := by decide

/-- Also the hypotheses of `EmittedFrameReadsBack`. -/
theorem test_witness_EmittedFrameFields :
    Instr.cmd .stop = some .stop ∧ ∃ t, exec .stop State.reset = .next t ∧
      t.results = State.reset.results ++ [.ok (.frame [0xE0#8, 0xF7#8, 0xD7#8])] :=
  ⟨rfl, State.record (State.reset.putFrame [0xE0#8, 0xF7#8, 0xD7#8])
    (.ok (.frame [0xE0#8, 0xF7#8, 0xD7#8])), next_of_nextOf (by decide), rfl⟩

theorem test_witness_ConfigurationRangesAreEnforced :
    15 < (16#8).toNat ∧ (0#16).toNat = 0 ∧ 256 < (257#16).toNat ∧ 0x4B0 < (0x4B1#16).toNat ∧
    seen (exec (.setSubdivision 0) stateFull) = kept (.err .invalidSubdivision) := by decide

theorem test_witness_SpeedIsCheckedBeforePulseCount :
    0x7F < (0x80#8).toNat ∧ ((0x7F#8).toNat ≤ 0x7F ∧ 0xFFFFFF < (0x1000000#32).toNat) ∧
    4 < (5#8).toNat ∧
    seen (exec (.runPulses .clockwise 0x7F 0x1000000) stateFull) =
      kept (.err .invalidPulseCount) := by decide

theorem test_witness_InvalidStoredAddressIsReported :
    Instr.port (.setCurrentLimit 15) = .command ∧ Instr.WellFormed (.setCurrentLimit 15) ∧
    addrValid (stateAt 0xEA#8).addr = false ∧
    seen (exec (.setCurrentLimit 15) (stateAt 0xEA#8)) =
      some ([.err .invalidAddress], 0xEA#8, 0, List.replicate 10 0x00#8) := by decide

/-- Every error is returned by some instruction from some state: the hypotheses of
`ErrorsComeOnlyFromTheirCauses`, clause by clause. -/
theorem test_witness_ErrorsComeOnlyFromTheirCauses :
    Returns (.stop) (stateAt 0xEA#8) (.err .invalidAddress) ∧
    Returns (.runMotor .clockwise 0x80) State.reset (.err .invalidSpeed) ∧
    Returns (.runPulses .clockwise 0x80 0) State.reset (.err .invalidSpeed) ∧
    Returns (.setZeroSpeed 5) State.reset (.err .invalidSpeed) ∧
    Returns (.setCurrentLimit 16) State.reset (.err .invalidCurrentLimit) ∧
    Returns (.setSubdivision 0) State.reset (.err .invalidSubdivision) ∧
    Returns (.setMaxTorque 0x4B1) State.reset (.err .invalidTorque) ∧
    Returns (.runPulses .clockwise 1 0x1000000) State.reset (.err .invalidPulseCount) ∧
    Returns (.decodeAck [0xE0#8, 0x01#8]) State.reset (.err .invalidPacket) ∧
    Returns (.decodeShaft [0xE0#8, 0x03#8, 0xE3#8]) State.reset (.err .invalidResponse) ∧
    Returns (.decodeAck [0xE0#8, 0x00#8, 0xE0#8]) State.reset (.err .deviceReportedFailure) := by
  refine ⟨?_, ?_, ?_, ?_, ?_, ?_, ?_, ?_, ?_, ?_, ?_⟩ <;> exact next_of_nextOf (by decide)

theorem test_witness_ErrorLeavesStateUnchanged :
    serve (.setAddress 0xEA#8) State.reset = .next (State.reset.record (.err .invalidAddress)) ∧
    serve (.decode .stop []) State.reset = .next (State.reset.record (.err .invalidPacket)) :=
  ⟨rfl, rfl⟩

theorem test_witness_ShortOrCorruptResponsesAreRejected :
    [0xE0#8, 0x01#8].length < Config.responseLength .ack ∧
    ([0xE0#8, 0x01#8].length + 1 = Config.responseLength .ack ∧
      0xE0#8 ≠ chk8 [0xE0#8, 0x01#8]) := by decide

theorem test_witness_EncoderResponseGivesCarryAndValue :
    (-(2 : Int) ^ 31 ≤ -2147483648 ∧ (2147483647 : Int) < 2 ^ 31 ∧ 65535 < 2 ^ 16) ∧
    decoded .readEncoder [0xE0#8, 0x80#8, 0x00#8, 0x00#8, 0x00#8, 0xFF#8, 0xFF#8, 0x5E#8] =
      kept (.ok (.encoder (-2147483648) 0xFFFF)) := ⟨by norm_num, by decide⟩

theorem test_witness_SignedResponsesGiveTheirValue :
    (-(2 : Int) ^ 31 ≤ -2147483648 ∧ (2147483647 : Int) < 2 ^ 31) ∧
    -(2 : Int) ^ 15 ≤ -32768 ∧ (32767 : Int) < 2 ^ 15 := by norm_num

theorem test_witness_OneCorruptedByteIsRejected :
    Returns (.ofKind .ack [0xE0#8, 0x01#8, 0xE1#8]) State.reset (.ok .ack) ∧
    Result.ok Value.ack ≠ .err .invalidPacket ∧ 2 < Config.responseLength .ack ∧
    [0xE0#8, 0x01#8, 0xE1#8][2]? = some 0xE1#8 ∧ 0xE0#8 ≠ 0xE1#8 :=
  ⟨rfl, by decide, by decide, rfl, by decide⟩

theorem test_witness_BytesBehindTheFrameAreIgnored :
    Config.responseLength .ack ≤ [0xE0#8, 0x01#8, 0xE1#8].length := by decide

theorem test_witness_HeaderByteIsOnlySummed :
    [0x01#8].length + 2 = Config.responseLength .ack ∧ 0xF4#8 = 0xE1#8 + (0xF3#8 - 0xE0#8) ∧
    decoded .stop [0xF3#8, 0x01#8, 0xF4#8] = kept (.ok .ack) := by decide

/-- One context of each clause. -/
theorem test_witness_ResultTypeIsFixedByContext :
    serve (.decode .readEncoder [0xE0#8, 0xFF#8, 0xFF#8, 0xFF#8, 0xFF#8, 0x3F#8, 0xFF#8, 0x1A#8])
        State.reset =
      .next (State.reset.record (.ok (.encoder (-1) 0x3FFF))) ∧
    serve (.decode .readAngle [0xE0#8, 0xFF#8, 0xFF#8, 0xFF#8, 0xFF#8, 0xDC#8]) State.reset =
      .next (State.reset.record (.ok (.int32 (-1)))) ∧
    serve (.decode .readAngleError [0xE0#8, 0xFF#8, 0x38#8, 0x17#8]) State.reset =
      .next (State.reset.record (.ok (.int16 (-200)))) ∧
    serve (.decode .readEnPin [0xE0#8, 0x01#8, 0xE1#8]) State.reset =
      .next (State.reset.record (.ok (.enPin .enabled))) ∧
    serve (.decode .readShaftStatus [0xE0#8, 0x02#8, 0xE2#8]) State.reset =
      .next (State.reset.record (.ok (.shaft .unblocked))) ∧
    serve (.decode .readReleaseStatus [0xE0#8, 0x01#8, 0xE1#8]) State.reset =
      .next (State.reset.record (.ok (.ack))) := by
  refine ⟨?_, ?_, ?_, ?_, ?_, ?_⟩ <;> exact next_of_nextOf (by decide +kernel)

theorem test_witness_CodecInv_reset : CodecInv State.reset :=
  ⟨by decide, by decide, .inl ⟨rfl, fun _ _ => rfl⟩⟩

/-- The second clause of R24: with a frame in the buffer. -/
theorem test_witness_StepKeepsInvariant :
    CodecInv stateFull ∧ step stateFull = .next stateFull :=
  ⟨⟨by decide, by decide, .inr (by decide)⟩, rfl⟩

theorem test_witness_NoReachableEncodeReportsInvalidAddress :
    (∃ s, Host.Core.run core 1 { State.reset with pending := [.setAddress 0xE9#8] } = .next s) ∧
    ∃ t, exec .stop State.reset = .next t := ⟨⟨_, rfl⟩, _, rfl⟩

theorem test_witness_OnlyResetAndSetAddressWriteAddr :
    (∃ t, step (statePending [.setAddress 0xE9#8]) = .next t ∧ t.addr ≠ State.reset.addr) ∧
    ∃ t, step { stateAt 0xE4#8 with pending := [.reset] } = .next t ∧ t.addr ≠ 0xE4#8 :=
  ⟨⟨_, rfl, by decide⟩, _, rfl, by decide⟩

theorem test_witness_EncodeIsPure :
    Memory.wf State.reset.buf ∧ Memory.wf stateFull.buf ∧ State.reset.addr = stateFull.addr := by
  decide

theorem test_witness_TableWordsThatDoNotFitAreRefused :
    wordBytes 24 0xE0F7D7 = .ok [0xE0#8, 0xF7#8, 0xD7#8] ∧ (24 % 8 = 0 ∧ 0xFFFFFF < 2 ^ 24) ∧
    25 % 8 ≠ 0 ∧ 2 ^ 24 ≤ 0x1000000 := by decide

end Sys2Proof.Tests
end

/-!
The operations as everything that can come of them, whatever the instruction: a well-formed command
ends in the frame builder, an ill-formed one in its error, a response in the parser; and what a
request of the host or a step can answer.
-/

namespace Sys2Proof.Machine

/-- How received bytes of a kind are read once the common checks hold (R180 to R185). -/
def interpret : RespKind → List Byte → Result
  | .ack => ackResult
  | .enPin => enPinResult
  | .shaft => shaftResult
  | .i16 => i16Result
  | .i32 => i32Result
  | .enc => encResult

theorem exec_ofKind (k : RespKind) (rx : List Byte) (s : State) :
    exec (Instr.ofKind k rx) s = finish (parse k (interpret k) rx) s := by
  cases k <;> rfl

theorem interpret_ne_invalidAddress (k : RespKind) (rx : List Byte) :
    interpret k rx ≠ .err .invalidAddress := by
  cases k with
  | ack => simp only [interpret, ackResult]; split <;> simp
  | enPin => simp only [interpret, enPinResult]; split <;> simp
  | shaft => simp only [interpret, shaftResult]; split <;> simp
  | i16 | i32 | enc => exact nofun

theorem parse_ne_invalidAddress (k : RespKind) (rx : List Byte) :
    parse k (interpret k) rx ≠ .err .invalidAddress := by
  rcases parse_cases k (interpret k) rx with ⟨-, h⟩ | ⟨-, h⟩ <;> rw [h]
  · simp
  · exact interpret_ne_invalidAddress k rx

/-- The rows of the opcode table without a command selector are the response formats. -/
theorem eq_ofKind_of_cmd_none {i : Instr} (h : i.cmd = none) : ∃ k rx, i = .ofKind k rx := by
  cases i with
  | decodeAck rx => exact ⟨.ack, rx, rfl⟩
  | decodeEnPin rx => exact ⟨.enPin, rx, rfl⟩
  | decodeShaft rx => exact ⟨.shaft, rx, rfl⟩
  | decodeI16 rx => exact ⟨.i16, rx, rfl⟩
  | decodeI32 rx => exact ⟨.i32, rx, rfl⟩
  | decodeEnc rx => exact ⟨.enc, rx, rfl⟩
  | _ => cases h

/-- A command's payload fills its frame format (30_encoding.md R61). -/
theorem length_payload {i : Instr} {c : Cmd} (h : i.cmd = some c) :
    3 + i.payload.length = c.format.length := by
  cases i <;> cases h <;> rfl

theorem length_format_cases (f : Format) :
    f.length = 3 ∨ f.length = 4 ∨ f.length = 5 ∨ f.length = 7 := by
  cases f <;> decide

/-- A frame of any format fits the buffer. -/
theorem length_frameOf_le {a op : Byte} {p : List Byte} {f : Format}
    (h : 3 + p.length = f.length) : (frameOf a op p).length ≤ Config.bufCap := by
  have hfmt := length_format_cases f
  unfold Config.bufCap
  rw [length_frameOf]
  omega

/-- A command whose operands are legal passes its checks and ends in the frame builder
(40_primitives.md R105). -/
theorem exec_of_wellFormed {i : Instr} {c : Cmd} (hc : i.cmd = some c) (hw : i.WellFormed)
    (s : State) : exec i s = buildFrame (Config.opcode c) i.payload s := by
  cases i <;> cases hc
  case setCurrentLimit idx => exact if_neg (Nat.not_lt.mpr ((wellFormed_setCurrentLimit idx).mp hw))
  case setSubdivision sub =>
    have hr := (wellFormed_setSubdivision sub).mp hw
    have hout : ¬(sub.toNat < 1 ∨ 256 < sub.toNat) := by omega
    exact if_neg hout
  case setZeroSpeed v => exact if_neg (Nat.not_lt.mpr ((wellFormed_setZeroSpeed v).mp hw))
  case runMotor d v => exact if_neg (Nat.not_lt.mpr ((wellFormed_runMotor d v).mp hw))
  case runPulses d v p =>
    obtain ⟨hv, hp⟩ := (wellFormed_runPulses d v p).mp hw
    exact (if_neg (Nat.not_lt.mpr hv)).trans (if_neg (Nat.not_lt.mpr hp))
  case setMaxTorque v => exact if_neg (Nat.not_lt.mpr ((wellFormed_setMaxTorque v).mp hw))
  all_goals rfl

/-- A command with an illegal operand raises an error of its own in every state, before the address
is looked at (60_exceptions.md R211). -/
theorem exec_of_illFormed {i : Instr} (hw : i.wellFormed = false) :
    ∃ e, e ≠ .invalidAddress ∧ ∀ s, exec i s = raise e s := by
  have hw := Bool.eq_false_iff.mp hw
  cases i with
  | setCurrentLimit idx =>
    rw [ne_eq, wellFormed_setCurrentLimit] at hw
    exact ⟨.invalidCurrentLimit, by simp, fun _ => if_pos (Nat.lt_of_not_le hw)⟩
  | setSubdivision sub =>
    rw [ne_eq, wellFormed_setSubdivision] at hw
    have hout : sub.toNat < 1 ∨ 256 < sub.toNat := by omega
    exact ⟨.invalidSubdivision, by simp, fun _ => if_pos hout⟩
  | setZeroSpeed v =>
    rw [ne_eq, wellFormed_setZeroSpeed] at hw
    exact ⟨.invalidSpeed, by simp, fun _ => if_pos (Nat.lt_of_not_le hw)⟩
  | runMotor d v =>
    rw [ne_eq, wellFormed_runMotor] at hw
    exact ⟨.invalidSpeed, by simp, fun _ => if_pos (Nat.lt_of_not_le hw)⟩
  | runPulses d v p =>
    rw [ne_eq, wellFormed_runPulses] at hw
    by_cases hv : v.toNat ≤ 0x7F
    · have hp : 0xFFFFFF < p.toNat := by omega
      exact ⟨.invalidPulseCount, by simp, fun _ =>
        (if_neg (Nat.not_lt.mpr hv)).trans (if_pos hp)⟩
    · exact ⟨.invalidSpeed, by simp, fun _ => if_pos (Nat.lt_of_not_le hv)⟩
  | setMaxTorque v =>
    rw [ne_eq, wellFormed_setMaxTorque] at hw
    exact ⟨.invalidTorque, by simp, fun _ => if_pos (Nat.lt_of_not_le hw)⟩
  | _ => exact absurd rfl hw

/-- One instruction, case by case: a result and nothing else, which is `InvalidAddress` only at an
invalid stored address; or a command's frame at a valid one. -/
theorem exec_cases (i : Instr) (s : State) :
    (∃ r, (r = .err .invalidAddress → addrValid s.addr = false) ∧
      exec i s = .next (s.record r)) ∨
    ∃ c, i.cmd = some c ∧ addrValid s.addr = true ∧
      exec i s = .next ((s.putFrame (frameOf s.addr (Config.opcode c) i.payload)).record
        (.ok (.frame (frameOf s.addr (Config.opcode c) i.payload)))) := by
  cases hw : i.wellFormed with
  | false =>
    obtain ⟨e, he, hx⟩ := exec_of_illFormed hw
    exact .inl ⟨.err e, fun h => absurd (Result.err.inj h) he, hx s⟩
  | true =>
    cases hc : i.cmd with
    | none =>
      obtain ⟨k, rx, rfl⟩ := eq_ofKind_of_cmd_none hc
      exact .inl ⟨_, fun h => absurd h (parse_ne_invalidAddress k rx), exec_ofKind k rx s⟩
    | some c =>
      have hx := exec_of_wellFormed hc hw s
      rcases buildFrame_cases (Config.opcode c) i.payload s with
        ⟨hlong, -⟩ | ⟨-, ha, hb⟩ | ⟨-, ha, hb⟩
      · have hlen := length_payload hc
        have hfmt := length_format_cases c.format
        unfold Config.payloadMax at hlong
        omega
      · exact .inl ⟨_, fun _ => ha, hx.trans hb⟩
      · exact .inr ⟨c, rfl, ha, hx.trans hb⟩

/-- No instruction writes `ADDR` (10_state.md R21). -/
theorem exec_addr {i : Instr} {s t : State} (h : exec i s = .next t) : t.addr = s.addr := by
  rcases exec_cases i s with ⟨r, -, hx⟩ | ⟨c, -, -, hx⟩ <;> cases hx.symm.trans h <;> rfl

/-- What was read at the boundary answers a state only by running as an instruction. -/
theorem exec_of_runDecoded {d : Except DecodeError Instr} {s t : State}
    (h : runDecoded d s = .next t) : ∃ i, exec i s = .next t := by
  cases d with
  | ok i => exact ⟨i, h⟩
  | error why => cases h

/-- The requests a state can come from: reset, an address accepted or refused, or an instruction. -/
theorem serve_next {r : Request} {s t : State} (h : serve r s = .next t) :
    (r = .reset ∧ t = (s.clearFrame.withAddr Config.addrReset).record (.ok .unit)) ∨
    (∃ a, r = .setAddress a ∧ addrValid a = true ∧ t = (s.withAddr a).record (.ok .unit)) ∨
    (∃ a, r = .setAddress a ∧ addrValid a = false ∧ t = s.record (.err .invalidAddress)) ∨
    ∃ i, exec i s = .next t := by
  cases r with
  | reset => cases h; exact .inl ⟨rfl, rfl⟩
  | setAddress a =>
    cases ha : addrValid a with
    | true => cases (if_pos ha).symm.trans h; exact .inr (.inl ⟨a, rfl, ha, rfl⟩)
    | false =>
      cases (if_neg (by simp [ha])).symm.trans h
      exact .inr (.inr (.inl ⟨a, rfl, ha, rfl⟩))
  | op i => exact .inr (.inr (.inr ⟨i, h⟩))
  | decode c rx => exact .inr (.inr (.inr ⟨_, h⟩))
  | words | tableWord => exact .inr (.inr (.inr (exec_of_runDecoded h)))

/-- What every step of a machine keeps holds after any number of steps. -/
theorem run_keeps {M : Host.Core} {P : M.State → Prop}
    (hstep : ∀ s t, P s → M.step s = .next t → P t) {n : Nat} {s t : M.State} (hs : P s)
    (h : M.run n s = .next t) : P t := by
  induction n generalizing s with
  | zero => cases h; exact hs
  | succ n ih =>
    unfold Host.Core.run at h
    split at h
    · next u hu => exact ih (hstep s u hs hu) h
    · cases h
    · cases h

end Sys2Proof.Machine

/-! The invariant of every reachable state (10_state.md R24, R28). -/

namespace Sys2Proof.Safety

open Sys2Proof.Machine

/-- The invariant speaks of `ADDR`, `BUF` and `LEN` alone, not of the host's side. -/
theorem CodecInv.congr {s t : State} (h : CodecInv s) (ha : t.addr = s.addr) (hb : t.buf = s.buf)
    (hl : t.len = s.len) : CodecInv t := by
  obtain ⟨haddr, hmem, hframe⟩ := h
  refine ⟨ha ▸ haddr, hb ▸ hmem, ?_⟩
  unfold FrameInv
  rwa [hb, hl]

theorem CodecInv.record {s : State} (h : CodecInv s) (r : Result) : CodecInv (s.record r) :=
  h.congr rfl rfl rfl

theorem CodecInv.withPending {s : State} (h : CodecInv s) (q : List Request) :
    CodecInv (s.withPending q) :=
  h.congr rfl rfl rfl

theorem CodecInv.withAddr {s : State} (h : CodecInv s) {a : Byte} (ha : addrValid a = true) :
    CodecInv (s.withAddr a) :=
  ⟨ha, h.mem, h.frame⟩

/-- An empty buffer at the reset address: the state `reset` leaves, whatever stood before. -/
theorem codecInv_afterReset (s : State) : CodecInv (s.clearFrame.withAddr Config.addrReset) :=
  ⟨show addrValid Config.addrReset = true by decide, Memory.wf_nil,
    .inl ⟨rfl, fun _ _ => rfl⟩⟩

/-- A frame just put is one whole frame: its checksum stands last, the fill byte behind it. -/
theorem frameInv_putFrame (s : State) {a op : Byte} {p : List Byte} {f : Format}
    (ha : addrValid a = true) (hp : 3 + p.length = f.length) :
    FrameInv (s.putFrame (frameOf a op p)) := by
  have hfmt := length_format_cases f
  have hf : (frameOf a op p).length = (a :: op :: p).length + 1 := by simp [frameOf]
  have hle : (frameOf a op p).length ≤ Config.bufCap := length_frameOf_le hp
  have hlen := State.putFrame_len s _ hle
  have hread := State.read_putFrame s hle
  have hbody : (s.putFrame (frameOf a op p)).buf.readAll 0 (a :: op :: p).length
      = a :: op :: p := by
    refine Memory.readAll_eq fun i hi => ?_
    rw [Nat.zero_add, hread, if_pos (by omega), frameOf, List.getD_append _ _ _ _ hi,
      List.getD_eq_getElem _ _ hi]
  refine .inr ⟨?_, ?_, fun i hi hcap => ?_, ?_⟩
  · rwa [hlen, length_frameOf, hp]
  · rw [hlen, hf, Nat.add_sub_cancel, hbody, hread, if_pos (by omega), frameOf,
      List.getD_append_right _ _ _ _ le_rfl, Nat.sub_self, List.getD_cons_zero]
  · rw [hread, if_pos hcap, List.getD_eq_default _ _ (hlen ▸ hi)]
  · rwa [hread, if_pos (by decide)]

theorem CodecInv.putFrame {s : State} (h : CodecInv s) {op : Byte} {p : List Byte} {f : Format}
    (hp : 3 + p.length = f.length) : CodecInv (s.putFrame (frameOf s.addr op p)) where
  addr := h.addr
  mem := State.wf_putFrame h.mem (length_frameOf_le hp)
  frame := frameInv_putFrame s h.addr hp

theorem CodecInv.exec {i : Instr} {s t : State} (h : CodecInv s)
    (hx : Machine.exec i s = .next t) : CodecInv t := by
  rcases exec_cases i s with ⟨r, -, hr⟩ | ⟨c, hc, -, hr⟩ <;> cases hr.symm.trans hx
  · exact h.record r
  · exact (h.putFrame (length_payload hc)).record _

theorem CodecInv.serve {r : Request} {s t : State} (h : CodecInv s)
    (hr : Machine.serve r s = .next t) : CodecInv t := by
  rcases serve_next hr with ⟨-, rfl⟩ | ⟨a, -, ha, rfl⟩ | ⟨a, -, -, rfl⟩ | ⟨i, hx⟩
  · exact (codecInv_afterReset s).record _
  · exact (h.withAddr ha).record _
  · exact h.record _
  · exact h.exec hx

/-- Settles O49: a step is idle or serves one request, and every request keeps the invariant. -/
theorem stepKeepsInvariant : Obligations.StepKeepsInvariant := by
  intro s t h hstep
  rcases step_cases s with ⟨-, hidle⟩ | ⟨r, rest, -, hserve⟩
  · cases hidle.symm.trans hstep
    exact h
  · exact (h.withPending rest).serve (hserve.symm.trans hstep)

/-- Settles O50: the reset state is what `reset` leaves of itself. -/
theorem invariantHoldsAtReset : Obligations.InvariantHoldsAtReset :=
  codecInv_afterReset State.reset

/-- Settles O51: the invariant holds after any run from reset, so the stored address is valid, and
an instruction returns `InvalidAddress` only at an invalid one. -/
theorem noReachableEncodeReportsInvalidAddress :
    Obligations.NoReachableEncodeReportsInvalidAddress := by
  intro ops n s hrun
  have hinv : CodecInv s :=
    run_keeps (M := core) (P := CodecInv) stepKeepsInvariant
      (invariantHoldsAtReset.withPending ops) hrun
  refine ⟨hinv, fun i t hx hres => ?_⟩
  rcases exec_cases i s with ⟨r, hr, hx'⟩ | ⟨c, -, -, hx'⟩ <;> cases hx'.symm.trans hx
  · have ha := hr (by simpa using hres)
    exact absurd hinv.addr (by simp [ha])
  · simp at hres

/-- Settles O52: of the requests, an instruction and a refused address leave `ADDR` alone. -/
theorem onlyResetAndSetAddressWriteAddr : Obligations.OnlyResetAndSetAddressWriteAddr := by
  intro s t hstep hne
  rcases step_cases s with ⟨-, hidle⟩ | ⟨r, rest, hp, hserve⟩
  · cases hidle.symm.trans hstep
    exact absurd rfl hne
  · rcases serve_next (hserve.symm.trans hstep) with
      ⟨rfl, rfl⟩ | ⟨a, rfl, ha, rfl⟩ | ⟨a, -, -, rfl⟩ | ⟨i, hx⟩
    · exact .inl ⟨rest, hp, rfl⟩
    · exact .inr ⟨a, rest, hp, ha, rfl⟩
    · exact absurd rfl hne
    · exact absurd (exec_addr hx) hne

end Sys2Proof.Safety

/-!
The stream of the host's operations (20_memory.md R46): the oldest operation alone decides a step,
and serving it leaves the rest of the stream alone and adds one result.
-/

namespace Sys2Proof.Machine

theorem step_of_pending_nil {s : State} (h : s.pending = []) : step s = .next s := by
  unfold step
  rw [h]

theorem step_of_pending_cons {s : State} {r : Request} {rest : List Request}
    (h : s.pending = r :: rest) : step s = serve r (s.withPending rest) := by
  unfold step
  rw [h]

/-- A word presented as the very next operation is served on the state it was presented to. -/
theorem step_withFetchWord (s : State) (nbits w : Nat) :
    step (s.withFetchWord nbits w) = serve (.tableWord nbits w) s :=
  step_of_pending_cons rfl

theorem runDecoded_of_ok {d : Except DecodeError Instr} {i : Instr} (h : d = .ok i) (s : State) :
    runDecoded d s = exec i s := by
  subst h
  rfl

theorem runDecoded_of_error {d : Except DecodeError Instr} {why : DecodeError}
    (h : d = .error why) (s : State) : runDecoded d s = .refused (.undecodable why) := by
  subst h
  rfl

theorem decodeTableWord_eq_some_iff {nbits w : Nat} {i : Instr} :
    decodeTableWord nbits w = some i ↔ decodeWord nbits w = .ok i := by
  unfold decodeTableWord
  cases decodeWord nbits w <;> simp [Except.toOption]

/-- An instruction leaves the stream alone and adds one result (60_exceptions.md R200). -/
theorem exec_adds_one_result {i : Instr} {s t : State} (h : exec i s = .next t) :
    t.pending = s.pending ∧ ∃ q, t.results = s.results ++ [q] := by
  rcases exec_cases i s with ⟨r, -, hx⟩ | ⟨c, -, -, hx⟩ <;> cases hx.symm.trans h <;>
    exact ⟨rfl, _, rfl⟩

/-- So does every operation of the host. -/
theorem serve_adds_one_result {r : Request} {s t : State} (h : serve r s = .next t) :
    t.pending = s.pending ∧ ∃ q, t.results = s.results ++ [q] := by
  rcases serve_next h with ⟨-, rfl⟩ | ⟨a, -, -, rfl⟩ | ⟨a, -, -, rfl⟩ | ⟨i, hx⟩
  · exact ⟨rfl, _, rfl⟩
  · exact ⟨rfl, _, rfl⟩
  · exact ⟨rfl, _, rfl⟩
  · exact exec_adds_one_result hx

/-- Settles O17: a step is idle or serves the oldest operation on the state without it, and serving
keeps that shorter stream. -/
theorem stepTakesOneOperationAndReturnsOneResult :
    Obligations.StepTakesOneOperationAndReturnsOneResult := by
  intro s t hstep
  rcases step_cases s with ⟨hp, hidle⟩ | ⟨r, rest, hp, hserve⟩
  · cases hidle.symm.trans hstep
    exact .inl ⟨hp, rfl⟩
  · obtain ⟨hpending, q, hresults⟩ := serve_adds_one_result (hserve.symm.trans hstep)
    exact .inr ⟨r, rest, q, hp, hpending, hresults⟩

/-- Settles O14: the operation served is the decoder's result run, which is the instruction's own
`exec` when the decoder accepts. -/
theorem stepRunsDecodedWord : Obligations.StepRunsDecodedWord := by
  intro s i
  refine ⟨fun p bytes rest hp hd => ?_, fun nbits w rest hp hd => ?_, fun nbits w hd => ?_⟩
  · exact (step_of_pending_cons hp).trans (runDecoded_of_ok hd _)
  · exact (step_of_pending_cons hp).trans
      (runDecoded_of_ok (decodeTableWord_eq_some_iff.mp hd) _)
  · exact (step_withFetchWord s nbits w).trans
      (runDecoded_of_ok (decodeTableWord_eq_some_iff.mp hd) _)

/-- Settles O15: with an operation presented a step is `serve` of it, read off request by request. -/
theorem stepServesOldestOperation : Obligations.StepServesOldestOperation := by
  refine ⟨fun s hp => step_of_pending_nil hp, fun s r rest hp => ?_⟩
  have hserve := step_of_pending_cons hp
  refine ⟨hserve, ?_⟩
  cases r with
  | reset | setAddress | op | decode => exact hserve
  | words | tableWord =>
    exact ⟨fun i hd => hserve.trans (runDecoded_of_ok hd _),
      fun why hd => hserve.trans (runDecoded_of_error hd _)⟩

end Sys2Proof.Machine

/-!
The operand forms and their way back (30_encoding.md R65, R78): each form's byte or bytes give the
operand, and each operand the decoder reads gives its bytes.
-/

namespace Sys2Proof.Machine

/-- The bytes of `be_put` hold the value modulo the capacity of the field (40_primitives.md R94, R95). -/
theorem beGetU_bePut (v n : Nat) : beGetU (bePut v n) = v % 256 ^ n := by
  induction n with
  | zero => simp [bePut, beGetU, Nat.mod_one]
  | succ n ih =>
    have hshift : v >>> (8 * n) = v / 256 ^ n := by
      rw [Nat.shiftRight_eq_div_pow, Nat.pow_mul]
    have hbyte : (BitVec.ofNat 8 (v >>> (8 * n))).toNat = v / 256 ^ n % 256 := by
      rw [BitVec.toNat_ofNat, hshift]
    rw [bePut, beGetU, hbyte, length_bePut, ih, Nat.mod_pow_succ, Nat.add_comm, Nat.mul_comm]

/-- `be_put` takes no notice of what lies above its field. -/
theorem bePut_add_mul_pow (k r n : Nat) : bePut (k * 256 ^ n + r) n = bePut r n := by
  induction n generalizing k with
  | zero => rfl
  | succ n ih =>
    have hk : k * 256 ^ (n + 1) + r = k * 256 * 256 ^ n + r := by rw [pow_succ']; ring
    have hhead : BitVec.ofNat 8 ((k * 256 * 256 ^ n + r) >>> (8 * n))
        = BitVec.ofNat 8 (r >>> (8 * n)) := by
      apply BitVec.eq_of_toNat_eq
      rw [BitVec.toNat_ofNat, BitVec.toNat_ofNat, Nat.shiftRight_eq_div_pow,
        Nat.shiftRight_eq_div_pow, Nat.pow_mul, Nat.add_comm,
        Nat.add_mul_div_right _ _ (Nat.pow_pos (by decide)), Nat.add_mul_mod_self_right]
    rw [hk, bePut, hhead, ih, bePut]

/-- Loading bytes and putting them back gives the bytes (40_primitives.md R95). -/
theorem bePut_beGetU (s : List Byte) : bePut (beGetU s) s.length = s := by
  induction s with
  | nil => rfl
  | cons b s ih =>
    have hdiv : (b.toNat * 256 ^ s.length + beGetU s) >>> (8 * s.length) = b.toNat := by
      rw [Nat.shiftRight_eq_div_pow, Nat.pow_mul, Nat.add_comm,
        Nat.add_mul_div_right _ _ (Nat.pow_pos (by decide)), Nat.div_eq_of_lt (beGetU_lt s),
        Nat.zero_add]
    rw [beGetU, List.length_cons, bePut, hdiv, BitVec.ofNat_toNat, BitVec.setWidth_eq,
      bePut_add_mul_pow, ih]

end Sys2Proof.Machine

namespace Sys2Proof

open Machine

theorem Direction.ofByte_eq_some_iff (b : Byte) (d : Direction) :
    Direction.ofByte b = some d ↔ d.toByte = b := by
  constructor
  · unfold Direction.ofByte
    split_ifs <;> rintro ⟨⟩ <;> exact Eq.symm ‹_›
  · rintro rfl
    cases d <;> rfl

theorem EnableLogic.ofByte_eq_some_iff (b : Byte) (e : EnableLogic) :
    EnableLogic.ofByte b = some e ↔ e.toByte = b := by
  constructor
  · unfold EnableLogic.ofByte
    split_ifs <;> rintro ⟨⟩ <;> exact Eq.symm ‹_›
  · rintro rfl
    cases e <;> rfl

theorem ZeroMode.ofByte_eq_some_iff (b : Byte) (z : ZeroMode) :
    ZeroMode.ofByte b = some z ↔ z.toByte = b := by
  constructor
  · unfold ZeroMode.ofByte
    split_ifs <;> rintro ⟨⟩ <;> exact Eq.symm ‹_›
  · rintro rfl
    cases z <;> rfl

theorem SaveClear.ofByte_eq_some_iff (b : Byte) (c : SaveClear) :
    SaveClear.ofByte b = some c ↔ c.toByte = b := by
  constructor
  · unfold SaveClear.ofByte
    split_ifs <;> rintro ⟨⟩ <;> exact Eq.symm ‹_›
  · rintro rfl
    cases c <;> rfl

theorem boolOfByte_eq_some_iff (b : Byte) (x : Bool) :
    boolOfByte b = some x ↔ boolToByte x = b := by
  constructor
  · unfold boolOfByte
    split_ifs <;> rintro ⟨⟩ <;> exact Eq.symm ‹_›
  · rintro rfl
    cases x <;> rfl

/-- The direction bit is bit 7 and no other. -/
theorem dirCcwBit_eq_twoPow : Config.dirCcwBit = BitVec.twoPow 8 7 := rfl

theorem speedBit_dsDirection (b : Byte) : (dsDirection b).speedBit = b &&& Config.dirCcwBit := by
  unfold dsDirection
  split_ifs with h
  · exact h.symm
  · rw [dirCcwBit_eq_twoPow, BitVec.and_twoPow] at h ⊢
    split_ifs at h ⊢
    · rfl
    · exact absurd rfl h

/-- Every `ds` byte is the packing of its direction and its speed (40_primitives.md R103). -/
theorem packDs_dsDirection_dsSpeed (b : Byte) : packDs (dsDirection b) (dsSpeed b) = b := by
  rw [packDs, speedBit_dsDirection, dsSpeed, ← BitVec.and_or_distrib_left, BitVec.or_not_self,
    BitVec.and_allOnes]

/-- A legal speed leaves the direction bit clear. -/
theorem and_dirCcwBit_of_le {v : BitVec 8} (hv : v.toNat ≤ 0x7F) :
    v &&& Config.dirCcwBit = 0x00#8 := by
  have hbit : v.getLsbD 7 = false :=
    (BitVec.testBit_toNat v).symm.trans (Nat.testBit_lt_two_pow (by omega))
  rw [dirCcwBit_eq_twoPow, BitVec.and_twoPow, hbit]
  rfl

theorem dsDirection_packDs (d : Direction) {v : BitVec 8} (hv : v.toNat ≤ 0x7F) :
    dsDirection (packDs d v) = d := by
  unfold dsDirection packDs
  rw [BitVec.and_or_distrib_right, and_dirCcwBit_of_le hv, BitVec.or_zero]
  cases d <;> rfl

/-- A legal speed is a `ds` byte's other seven bits. -/
theorem dsSpeed_of_le {v : BitVec 8} (hv : v.toNat ≤ 0x7F) : dsSpeed v = v := by
  have hsplit : v &&& Config.dirCcwBit ||| v &&& ~~~Config.dirCcwBit = v := by
    rw [← BitVec.and_or_distrib_left, BitVec.or_not_self, BitVec.and_allOnes]
  rwa [and_dirCcwBit_of_le hv, BitVec.zero_or] at hsplit

theorem dsSpeed_packDs (d : Direction) {v : BitVec 8} (hv : v.toNat ≤ 0x7F) :
    dsSpeed (packDs d v) = v := by
  have hbit : d.speedBit &&& ~~~Config.dirCcwBit = 0x00#8 := by cases d <;> rfl
  have hspeed : v &&& ~~~Config.dirCcwBit = v := dsSpeed_of_le hv
  rw [dsSpeed, packDs, BitVec.and_or_distrib_right, hbit, hspeed, BitVec.zero_or]

/-- The byte of a legal subdivision reads back as it, 256 through 0x00 (42_config.md R131). -/
theorem subOfByte_subToByte {s : BitVec 16} (h : 1 ≤ s.toNat ∧ s.toNat ≤ 256) :
    subOfByte (subToByte s) = s := by
  obtain ⟨hlow, hhigh⟩ := h
  have hbyte : (subToByte s).toNat = s.toNat % 256 := by simp [subToByte]
  unfold subOfByte
  split_ifs with h0
  · have hzero : s.toNat % 256 = 0 := by rw [← hbyte, h0]; rfl
    exact BitVec.eq_of_toNat_eq (show 256 = s.toNat by omega)
  · have hne : s.toNat % 256 ≠ 0 := fun hz => h0 (BitVec.eq_of_toNat_eq (hbyte.trans hz))
    apply BitVec.eq_of_toNat_eq
    rw [hbyte, BitVec.toNat_ofNat]
    omega

/-- Every byte is the byte of the subdivision it reads back as. -/
theorem subToByte_subOfByte (b : Byte) : subToByte (subOfByte b) = b := by
  have hb := b.isLt
  unfold subOfByte
  split_ifs with h0
  · exact h0.symm
  · apply BitVec.eq_of_toNat_eq
    simpa [subToByte] using hb

theorem ofNat_beGetU_u16Payload (v : BitVec 16) :
    BitVec.ofNat 16 (beGetU (u16Payload v)) = v := by
  apply BitVec.eq_of_toNat_eq
  rw [BitVec.toNat_ofNat, u16Payload, beGetU_bePut]
  have hv := v.isLt
  omega

theorem u16Payload_ofNat_beGetU (h l : Byte) :
    u16Payload (BitVec.ofNat 16 (beGetU [h, l])) = [h, l] := by
  have hfits : beGetU [h, l] < 256 ^ 2 := beGetU_lt [h, l]
  rw [u16Payload, BitVec.toNat_ofNat, Nat.mod_eq_of_lt (by omega)]
  exact bePut_beGetU [h, l]

theorem ofNat_beGetU_u24Payload {p : BitVec 32} (hp : p.toNat ≤ 0xFFFFFF) :
    BitVec.ofNat 32 (beGetU (u24Payload p)) = p := by
  apply BitVec.eq_of_toNat_eq
  rw [BitVec.toNat_ofNat, u24Payload, beGetU_bePut]
  unfold Config.pulseBytes
  omega

theorem u24Payload_ofNat_beGetU (p2 p1 p0 : Byte) :
    u24Payload (BitVec.ofNat 32 (beGetU [p2, p1, p0])) = [p2, p1, p0] := by
  have hfits : beGetU [p2, p1, p0] < 256 ^ 3 := beGetU_lt [p2, p1, p0]
  rw [u24Payload, BitVec.toNat_ofNat, Nat.mod_eq_of_lt (by omega)]
  exact bePut_beGetU [p2, p1, p0]

theorem Cmd.opcode_of_ofOpcode {op : Byte} {c : Cmd} (h : Cmd.ofOpcode op = some c) :
    Config.opcode c = op := by
  simpa using List.find?_some h

end Sys2Proof

/-!
The decoder as the inverse of the encoder (30_encoding.md R78): for each operand form the payloads it
accepts, then a command's payload, a whole frame, and the strict read-back.
-/

namespace Sys2Proof

open Machine

/-- The instruction is the legal command `c` whose payload is `p`. -/
def IsCommandWith (c : Cmd) (p : List Byte) (i : Instr) : Prop :=
  i.cmd = some c ∧ i.WellFormed ∧ p = i.payload

theorem legal_eq_ok_iff {i j : Instr} : legal i = .ok j ↔ i.WellFormed ∧ i = j := by
  unfold legal Instr.WellFormed
  split_ifs with h <;> simp [h]

theorem legal_of_wellFormed {i : Instr} (h : i.WellFormed) : legal i = .ok i :=
  legal_eq_ok_iff.mpr ⟨h, rfl⟩

section Accepts

variable {c : Cmd} {p : List Byte} {i : Instr}

theorem noPayload_accepts {j : Instr} (hc : j.cmd = some c) (hw : j.WellFormed)
    (hp : j.payload = []) (h : noPayload j p = .ok i) : IsCommandWith c p i := by
  cases p with
  | nil => cases h; exact ⟨hc, hw, hp.symm⟩
  | cons => cases h

/-- One byte is accepted as the operand it is the byte of. -/
theorem onePayload_accepts {α : Type} {ofByte : Byte → Option α} {f : α → Instr}
    (hc : ∀ x, (f x).cmd = some c) (hp : ∀ b x, ofByte b = some x → (f x).payload = [b])
    (h : onePayload ofByte f p = .ok i) : IsCommandWith c p i := by
  unfold onePayload at h
  split at h
  · next b =>
    split at h
    · next x hx =>
      obtain ⟨hw, rfl⟩ := legal_eq_ok_iff.mp h
      exact ⟨hc x, hw, (hp b x hx).symm⟩
    · cases h
  · cases h

/-- The operand is one of an enumeration with its table `toByte`. -/
theorem enumPayload_accepts {α : Type} {ofByte : Byte → Option α} {toByte : α → Byte}
    {f : α → Instr} (ht : ∀ b x, ofByte b = some x ↔ toByte x = b) (hc : ∀ x, (f x).cmd = some c)
    (hp : ∀ x, (f x).payload = [toByte x]) (h : onePayload ofByte f p = .ok i) :
    IsCommandWith c p i :=
  onePayload_accepts hc (fun b x hx => by rw [hp, (ht b x).mp hx]) h

theorem twoPayload_accepts {f : BitVec 16 → Instr} (hc : ∀ v, (f v).cmd = some c)
    (hp : ∀ v, (f v).payload = u16Payload v) (h : twoPayload f p = .ok i) :
    IsCommandWith c p i := by
  unfold twoPayload at h
  split at h
  · next hi lo =>
    obtain ⟨hw, rfl⟩ := legal_eq_ok_iff.mp h
    exact ⟨hc _, hw, by rw [hp, u16Payload_ofNat_beGetU]⟩
  · cases h

theorem pulsesPayload_accepts (h : pulsesPayload p = .ok i) : IsCommandWith .runPulses p i := by
  unfold pulsesPayload at h
  split at h
  · next ds p2 p1 p0 =>
    obtain ⟨hw, rfl⟩ := legal_eq_ok_iff.mp h
    refine ⟨rfl, hw, ?_⟩
    rw [Instr.payload, packDs_dsDirection_dsSpeed, u24Payload_ofNat_beGetU]
  · cases h

/-- A payload is accepted only as the arguments it is the payload of. -/
theorem decodePayload_accepts (h : decodePayload c p = .ok i) : IsCommandWith c p i := by
  cases c with
  | readEncoder | readPulses | readAngle | readAngleError | readEnPin | readReleaseStatus
  | readShaftStatus | stop => exact noPayload_accepts rfl rfl rfl h
  | setCurrentLimit | setZeroSpeed =>
    exact onePayload_accepts (ofByte := some) (fun _ => rfl) (fun b x hx => by cases hx; rfl) h
  | setSubdivision =>
    exact onePayload_accepts (ofByte := fun b => some (subOfByte b)) (fun _ => rfl)
      (fun b x hx => by cases hx; rw [Instr.payload, subToByte_subOfByte]) h
  | runMotor =>
    exact onePayload_accepts (ofByte := some) (fun _ => rfl)
      (fun b x hx => by cases hx; rw [Instr.payload, packDs_dsDirection_dsSpeed]) h
  | setEnableLogic =>
    exact enumPayload_accepts EnableLogic.ofByte_eq_some_iff (fun _ => rfl) (fun _ => rfl) h
  | setDirection | setZeroDirection =>
    exact enumPayload_accepts Direction.ofByte_eq_some_iff (fun _ => rfl) (fun _ => rfl) h
  | setAutoScreenOff | setStallProtection | setInterpolation | enableMotor =>
    exact enumPayload_accepts boolOfByte_eq_some_iff (fun _ => rfl) (fun _ => rfl) h
  | setZeroMode =>
    exact enumPayload_accepts ZeroMode.ofByte_eq_some_iff (fun _ => rfl) (fun _ => rfl) h
  | saveClear =>
    exact enumPayload_accepts SaveClear.ofByte_eq_some_iff (fun _ => rfl) (fun _ => rfl) h
  | setKp | setKi | setKd | setAcceleration | setMaxTorque =>
    exact twoPayload_accepts (fun _ => rfl) (fun _ => rfl) h
  | runPulses => exact pulsesPayload_accepts h

end Accepts

theorem onePayload_reads {α : Type} {ofByte : Byte → Option α} {f : α → Instr} {b : Byte} {x : α}
    {i : Instr} (hb : ofByte b = some x) (hf : f x = i) (hw : i.WellFormed) :
    onePayload ofByte f [b] = .ok i := by
  simp only [onePayload, hb]
  exact legal_eq_ok_iff.mpr ⟨hf ▸ hw, hf⟩

theorem twoPayload_reads {f : BitVec 16 → Instr} {v : BitVec 16} (hw : (f v).WellFormed) :
    twoPayload f (u16Payload v) = .ok (f v) := by
  change legal (f (BitVec.ofNat 16 (beGetU (u16Payload v)))) = .ok (f v)
  rw [ofNat_beGetU_u16Payload, legal_of_wellFormed hw]

theorem pulsesPayload_reads {d : Direction} {v : BitVec 8} {n : BitVec 32}
    (hw : (Instr.runPulses d v n).WellFormed) :
    pulsesPayload (packDs d v :: u24Payload n) = .ok (.runPulses d v n) := by
  obtain ⟨hv, hn⟩ := (wellFormed_runPulses d v n).mp hw
  change legal (.runPulses (dsDirection (packDs d v)) (dsSpeed (packDs d v))
    (BitVec.ofNat 32 (beGetU (u24Payload n)))) = .ok (.runPulses d v n)
  rw [dsDirection_packDs d hv, dsSpeed_packDs d hv, ofNat_beGetU_u24Payload hn,
    legal_of_wellFormed hw]

/-- The payload of a legal command reads back as the command. -/
theorem decodePayload_payload {i : Instr} {c : Cmd} (hc : i.cmd = some c) (hw : i.WellFormed) :
    decodePayload c i.payload = .ok i := by
  cases i with
  | readEncoder | readPulses | readAngle | readAngleError | readEnPin | readReleaseStatus
  | readShaftStatus | stop => cases hc; rfl
  | setCurrentLimit | setZeroSpeed => cases hc; exact onePayload_reads rfl rfl hw
  | setSubdivision s =>
    cases hc
    have hs := subOfByte_subToByte ((wellFormed_setSubdivision s).mp hw)
    exact onePayload_reads (ofByte := fun b => some (subOfByte b)) rfl
      (congrArg Instr.setSubdivision hs) hw
  | runMotor d v =>
    cases hc
    have hv := (wellFormed_runMotor d v).mp hw
    exact onePayload_reads rfl (by rw [dsDirection_packDs d hv, dsSpeed_packDs d hv]) hw
  | setEnableLogic =>
    cases hc; exact onePayload_reads ((EnableLogic.ofByte_eq_some_iff _ _).mpr rfl) rfl hw
  | setDirection | setZeroDirection =>
    cases hc; exact onePayload_reads ((Direction.ofByte_eq_some_iff _ _).mpr rfl) rfl hw
  | setAutoScreenOff | setStallProtection | setInterpolation | enableMotor =>
    cases hc; exact onePayload_reads ((boolOfByte_eq_some_iff _ _).mpr rfl) rfl hw
  | setZeroMode =>
    cases hc; exact onePayload_reads ((ZeroMode.ofByte_eq_some_iff _ _).mpr rfl) rfl hw
  | saveClear =>
    cases hc; exact onePayload_reads ((SaveClear.ofByte_eq_some_iff _ _).mpr rfl) rfl hw
  | setKp | setKi | setKd | setAcceleration | setMaxTorque =>
    cases hc; exact twoPayload_reads hw
  | runPulses => cases hc; exact pulsesPayload_reads hw
  | decodeAck | decodeEnPin | decodeShaft | decodeI16 | decodeI32 | decodeEnc => cases hc

theorem decodePayload_eq_ok_iff {c : Cmd} {p : List Byte} {i : Instr} :
    decodePayload c p = .ok i ↔ IsCommandWith c p i := by
  constructor
  · exact decodePayload_accepts
  · rintro ⟨hc, hw, rfl⟩
    exact decodePayload_payload hc hw

/-- The last byte of a frame is dropped, whatever it is (30_encoding.md R64). -/
theorem decodeCommand_opcode (a : Byte) (c : Cmd) (p : List Byte) (k : Byte) :
    decodeCommand (a :: Config.opcode c :: p ++ [k]) = decodePayload c p := by
  cases p with
  | nil => simp [decodeCommand, Cmd.ofOpcode_opcode]
  | cons b p =>
    have hdrop : (b :: (p ++ [k])).dropLast = b :: p := List.dropLast_concat (l₁ := b :: p)
    simp only [List.cons_append, decodeCommand, Cmd.ofOpcode_opcode, hdrop]

/-- A command is read from exactly the frames of its opcode and payload, whatever the address and the
last byte are (30_encoding.md R62, R64). -/
theorem decodeCommand_eq_ok_iff {bytes : List Byte} {i : Instr} :
    decodeCommand bytes = .ok i ↔
      ∃ c a k, i.cmd = some c ∧ i.WellFormed ∧
        bytes = a :: Config.opcode c :: i.payload ++ [k] := by
  constructor
  · intro h
    unfold decodeCommand at h
    split at h
    · next a op b rest =>
      split at h
      · next c hop =>
        obtain ⟨hc, hw, hp⟩ := decodePayload_eq_ok_iff.mp h
        have hsplit := List.dropLast_append_getLast (List.cons_ne_nil b rest)
        refine ⟨c, a, (b :: rest).getLast (List.cons_ne_nil b rest), hc, hw, ?_⟩
        rw [← hp, Cmd.opcode_of_ofOpcode hop, List.cons_append, List.cons_append, hsplit]
      · cases h
    · cases h
  · rintro ⟨c, a, k, hc, hw, rfl⟩
    rw [decodeCommand_opcode, decodePayload_payload hc hw]

/-- The strict read-back: a valid frame at a device address that reads as a command. -/
theorem readBack_eq_ok_iff {bytes : List Byte} {i : Instr} :
    readBack bytes = .ok i ↔
      frameValid bytes = true ∧ bytes.head?.any addrValid = true ∧
        decodeCommand bytes = .ok i := by
  unfold readBack
  split_ifs with hv ha <;> simp [*]

/-- The command half of the opcode table is the rows with a command selector. -/
theorem port_eq_command_iff {i : Instr} : i.port = .command ↔ ∃ c, i.cmd = some c := by
  constructor
  · intro hp
    cases hc : i.cmd with
    | some c => exact ⟨c, rfl⟩
    | none =>
      obtain ⟨k, rx, rfl⟩ := eq_ofKind_of_cmd_none hc
      cases (Instr.port_ofKind k rx).symm.trans hp
  · rintro ⟨c, hc⟩
    cases i with
    | decodeAck | decodeEnPin | decodeShaft | decodeI16 | decodeI32 | decodeEnc => cases hc
    | _ => rfl

theorem encode_of_cmd {i : Instr} {c : Cmd} (hc : i.cmd = some c) (a : Byte) :
    encode a i = frameOf a (Config.opcode c) i.payload := by
  unfold encode
  rw [hc]

theorem encode_ofKind (a : Byte) (k : RespKind) (rx : List Byte) :
    encode a (Instr.ofKind k rx) = rx := by
  cases k <;> rfl

/-- Settles O9: a response word is read by its kind, a command word by its opcode and payload. -/
theorem decodeOfEncode : Obligations.DecodeOfEncode := by
  intro a i hw
  cases hc : i.cmd with
  | none =>
    obtain ⟨k, rx, rfl⟩ := eq_ofKind_of_cmd_none hc
    rw [Instr.port_ofKind, encode_ofKind, decode]
  | some c =>
    rw [port_eq_command_iff.mpr ⟨c, hc⟩, encode_of_cmd hc, decode]
    exact decodeCommand_eq_ok_iff.mpr ⟨c, a, _, hc, hw, rfl⟩

/-- Settles O10: the checksum fixes the last byte and the address check the first; the decoder fixes
what stands between. -/
theorem readBackAcceptsExactlyEmittableFrames :
    Obligations.ReadBackAcceptsExactlyEmittableFrames := by
  intro bytes i
  rw [readBack_eq_ok_iff, port_eq_command_iff]
  constructor
  · rintro ⟨hv, ha, hd⟩
    obtain ⟨c, a, k, hc, hw, rfl⟩ := decodeCommand_eq_ok_iff.mp hd
    obtain rfl := (frameValid_concat _ _).mp hv
    exact ⟨⟨c, hc⟩, hw, a, ha, (encode_of_cmd hc a).symm⟩
  · rintro ⟨⟨c, hc⟩, hw, a, ha, rfl⟩
    rw [encode_of_cmd hc]
    exact ⟨frameValid_frameOf _ _ _, ha, decodeCommand_eq_ok_iff.mpr ⟨c, a, _, hc, hw, rfl⟩⟩

/-- Settles O12: the opcode identifies its command, so no two commands share one. -/
theorem opcodesAreDistinct : Obligations.OpcodesAreDistinct := by
  refine ⟨fun c d h => ?_, rfl, rfl, rfl⟩
  have hsome : some c = some d := by rw [← Cmd.ofOpcode_opcode c, h, Cmd.ofOpcode_opcode]
  exact Option.some.inj hsome

/-- Settles O13: each word evaluated. -/
theorem specWordsDecode : Obligations.SpecWordsDecode := by
  refine ⟨?_, ?_, ?_, ?_, ?_, ?_⟩ <;> decide

end Sys2Proof

/-! The frame a command returns (10_state.md R23, 40_primitives.md R105), and construction. -/

namespace Sys2Proof.Machine

theorem interpret_ne_frame (k : RespKind) (rx f : List Byte) :
    interpret k rx ≠ .ok (.frame f) := by
  cases k with
  | ack => simp only [interpret, ackResult]; split <;> simp
  | enPin => simp only [interpret, enPinResult]; split <;> simp
  | shaft => simp only [interpret, shaftResult]; split <;> simp
  | i16 | i32 | enc => exact nofun

theorem parse_ne_frame (k : RespKind) (rx f : List Byte) :
    parse k (interpret k) rx ≠ .ok (.frame f) := by
  rcases parse_cases k (interpret k) rx with ⟨-, h⟩ | ⟨-, h⟩ <;> rw [h]
  · simp
  · exact interpret_ne_frame k rx f

/-- A frame is returned only by a legal command at a valid address, and it is the frame built: what
`exec_cases` says of a frame, with the operands' legality. -/
theorem exec_returns_frame {i : Instr} {s t : State} {f : List Byte} (hx : exec i s = .next t)
    (hr : t.results = s.results ++ [.ok (.frame f)]) :
    ∃ c, i.cmd = some c ∧ i.WellFormed ∧ addrValid s.addr = true ∧
      f = frameOf s.addr (Config.opcode c) i.payload ∧
      t = (s.putFrame f).record (.ok (.frame f)) := by
  cases hw : i.wellFormed with
  | false =>
    obtain ⟨e, -, hraise⟩ := exec_of_illFormed hw
    cases (hraise s).symm.trans hx
    simp at hr
  | true =>
    cases hc : i.cmd with
    | none =>
      obtain ⟨k, rx, rfl⟩ := eq_ofKind_of_cmd_none hc
      cases (exec_ofKind k rx s).symm.trans hx
      exact absurd (by simpa using hr) (parse_ne_frame k rx f)
    | some c =>
      have hbuild := (exec_of_wellFormed hc hw s).symm.trans hx
      rcases buildFrame_cases (Config.opcode c) i.payload s with
        ⟨-, hb⟩ | ⟨-, -, hb⟩ | ⟨-, ha, hb⟩ <;> cases hb.symm.trans hbuild
      · simp at hr
      · obtain rfl : frameOf s.addr (Config.opcode c) i.payload = f := by simpa using hr
        exact ⟨c, rfl, hw, ha, rfl, rfl⟩

/-- Settles O53: the frame is the encoder's word at a valid address, so the strict read-back accepts
it. -/
theorem emittedFrameReadsBack : Obligations.EmittedFrameReadsBack := by
  intro i s t f hx hr
  obtain ⟨c, hc, hw, ha, hf, rfl⟩ := exec_returns_frame hx hr
  have hlen := length_payload hc
  have henc : f = encode s.addr i := hf.trans (encode_of_cmd hc s.addr).symm
  have hview : (s.putFrame f).view = f := State.view_putFrame s (hf ▸ length_frameOf_le hlen)
  have hread : readBack f = .ok i :=
    (readBackAcceptsExactlyEmittableFrames f i).mpr
      ⟨port_eq_command_iff.mpr ⟨c, hc⟩, hw, s.addr, ha, henc⟩
  refine ⟨hview.symm, henc, hread, (readBack_eq_ok_iff.mp hread).1, ?_⟩
  rw [hf, length_frameOf, hlen]
  exact length_format_cases c.format

/-- Settles O32: the frame a command returns is the one the builder makes of its opcode and payload. -/
theorem emittedFrameFields : Obligations.EmittedFrameFields := by
  intro i c s t f hc hx hr
  obtain ⟨d, hd, -, ha, hf, -⟩ := exec_returns_frame hx hr
  cases hc.symm.trans hd
  obtain ⟨hmin, hmax⟩ := (addrValid_iff s.addr).mp ha
  exact ⟨hmin, hmax, i.payload, hf⟩

theorem run_succ_of_step {M : Host.Core} {s t : M.State} (h : M.step s = .next t) (n : Nat) :
    M.run (n + 1) s = M.run n t := by
  rw [Host.Core.run, h]

theorem step_reset {s : State} {rest : List Request} (h : s.pending = .reset :: rest) :
    step s = .next
      (((s.withPending rest).clearFrame.withAddr Config.addrReset).record (.ok .unit)) :=
  step_of_pending_cons h

theorem step_setAddress_of_valid {s : State} {a : Byte} {rest : List Request}
    (h : s.pending = .setAddress a :: rest) (ha : addrValid a = true) :
    step s = .next (((s.withPending rest).withAddr a).record (.ok .unit)) :=
  (step_of_pending_cons h).trans (if_pos ha)

theorem step_setAddress_of_invalid {s : State} {a : Byte} {rest : List Request}
    (h : s.pending = .setAddress a :: rest) (ha : addrValid a = false) :
    step s = .next ((s.withPending rest).record (.err .invalidAddress)) :=
  (step_of_pending_cons h).trans (if_neg (Bool.eq_false_iff.mp ha))

/-- Settles O22: the first step empties the buffer and sets the reset address, the second accepts or
refuses `a`. -/
theorem constructionWithAddress : Obligations.ConstructionWithAddress := by
  intro s a hp
  have hrun := run_succ_of_step (M := core) (step_reset hp) 1
  cases ha : addrValid a with
  | true =>
    exact ⟨_, hrun.trans (run_succ_of_step (M := core) (step_setAddress_of_valid rfl ha) 0),
      rfl, rfl, rfl, fun _ => ⟨rfl, by simp⟩, nofun⟩
  | false =>
    exact ⟨_, hrun.trans (run_succ_of_step (M := core) (step_setAddress_of_invalid rfl ha) 0),
      rfl, rfl, rfl, nofun, fun _ => ⟨rfl, by simp⟩⟩

end Sys2Proof.Machine

/-! The checksum's laws (40_primitives.md R90, R91) and what they say of frames (R93). -/

namespace Sys2Proof.Machine

@[simp] theorem chk8_nil : chk8 [] = 0x00#8 := rfl

theorem toNat_chk8 (s : List Byte) : (chk8 s).toNat = (s.map BitVec.toNat).sum % 256 :=
  BitVec.toNat_ofNat _ _

/-- Concatenation adds the checksums. -/
theorem chk8_append (s t : List Byte) : chk8 (s ++ t) = chk8 s + chk8 t := by
  induction s with
  | nil => rw [List.nil_append, chk8_nil, BitVec.zero_add]
  | cons b s ih => rw [List.cons_append, chk8_cons, chk8_cons, ih, BitVec.add_assoc]

theorem chk8_concat (s : List Byte) (b : Byte) : chk8 (s ++ [b]) = chk8 s + b := by
  rw [chk8_append, chk8_cons, chk8_nil, BitVec.add_zero]

theorem chk8_perm {s t : List Byte} (h : s.Perm t) : chk8 s = chk8 t :=
  congrArg (BitVec.ofNat 8) (h.map BitVec.toNat).sum_eq

/-- Each byte 0xFF counts down by one. -/
theorem toNat_chk8_replicate_0xFF (m : Nat) :
    (chk8 (List.replicate m 0xFF#8)).toNat = (256 - m % 256) % 256 := by
  have hsum : ((List.replicate m 0xFF#8).map BitVec.toNat).sum = m * 255 := by simp
  rw [toNat_chk8, hsum]
  omega

/-- A byte inside a sequence is one summand of the checksum. -/
theorem chk8_append_cons (p q : List Byte) (b : Byte) :
    chk8 (p ++ b :: q) = b + (chk8 p + chk8 q) := by
  rw [chk8_append, chk8_cons]
  ac_rfl

/-- Settles O1: the sum of the byte values, one 8-bit addition a byte. -/
theorem checksumLaws : Obligations.ChecksumLaws := fun s t =>
  ⟨chk8_nil, toNat_chk8 s, chk8_concat s, chk8_append s t, chk8_perm, chk8_concat s (chk8 s),
    toNat_chk8_replicate_0xFF⟩

/-- Settles O2: a byte is a summand of the checksum, and summands cancel. -/
theorem checksumSeesOneChangedByte : Obligations.ChecksumSeesOneChangedByte := by
  refine ⟨fun p q b c hne heq => hne ?_, fun p q r b c d => ?_⟩
  · rw [chk8_append_cons, chk8_append_cons] at heq
    exact add_right_cancel heq
  · rw [chk8_append_cons, chk8_append_cons, chk8_append_cons, chk8_append_cons]
    ring

/-- Settles O3: a sequence that is not empty is the bytes before its last byte, and that byte. -/
theorem frameValidIffLastByteIsChecksum : Obligations.FrameValidIffLastByteIsChecksum := by
  intro s
  constructor
  · intro hv
    induction s using List.reverseRecOn with
    | nil => cases hv
    | append_singleton body c => exact ⟨body, by rw [← (frameValid_concat body c).mp hv]⟩
  · rintro ⟨body, rfl⟩
    exact (frameValid_concat body _).mpr rfl

end Sys2Proof.Machine

/-! The layout of the big-endian marshaller (40_primitives.md R94, R95; 00_scope.md R7). -/

namespace Sys2Proof.Machine

/-- Byte `k` of `n` holds the bits from `8 * (n - 1 - k)` upward. -/
theorem getElem?_bePut {n k : Nat} (v : Nat) (h : k < n) :
    (bePut v n)[k]? = some (BitVec.ofNat 8 (v >>> (8 * (n - 1 - k)))) := by
  induction n generalizing k with
  | zero => omega
  | succ n ih =>
    cases k with
    | zero => rfl
    | succ k =>
      have hk : n + 1 - 1 - (k + 1) = n - 1 - k := by omega
      rw [bePut, List.getElem?_cons_succ, ih (by omega), hk]

/-- A store of the marshaller's bytes reads back in place. -/
theorem read_memWrite_inside (m : Memory) (a v : Nat) {n k : Nat} (h : k < n) :
    (memWrite m a n v).read (a + k) = BitVec.ofNat 8 (v >>> (8 * (n - 1 - k))) := by
  rw [memWrite, Memory.read_writeAll, length_bePut, if_pos (by omega), Nat.add_sub_cancel_left,
    List.getD_eq_getElem?_getD, getElem?_bePut v h, Option.getD_some]

/-- A store leaves every byte outside its field alone (20_memory.md R53). -/
theorem read_memWrite_outside (m : Memory) {a n i : Nat} (v : Nat) (h : i < a ∨ a + n ≤ i) :
    (memWrite m a n v).read i = m.read i := by
  rw [memWrite, Memory.read_writeAll, length_bePut, if_neg (by omega)]

/-- Settles O4: the bytes one by one, and the store of exactly those bytes. -/
theorem bigEndianPutLayout : Obligations.BigEndianPutLayout := fun n v =>
  ⟨length_bePut v n, fun _ => getElem?_bePut v, fun m a _ =>
    ⟨fun _ => read_memWrite_inside m a v, read_memWrite_outside m v⟩⟩

/-- Settles O5: the bytes hold the value modulo the field's capacity, which a fitting value is
below. -/
theorem bigEndianRoundTrip : Obligations.BigEndianRoundTrip := by
  refine ⟨fun n v hv => ?_, bePut_beGetU⟩
  rw [Nat.pow_mul] at hv
  rw [beGetU_bePut, Nat.mod_eq_of_lt hv]

/-- Settles O8: the direction is bit 7, which a legal speed leaves clear. -/
theorem packedDirectionAndSpeedReadBack : Obligations.PackedDirectionAndSpeedReadBack :=
  fun d _ hv => ⟨BitVec.zero_or, rfl, dsDirection_packDs d hv, dsSpeed_packDs d hv⟩

end Sys2Proof.Machine

/-!
A legal command at an invalid and at a valid stored address, and what an instruction's outcome
depends on (40_primitives.md R105 to R108).
-/

namespace Sys2Proof.Machine

/-- No command's payload is too long for the frame builder (20_memory.md R51). -/
theorem length_payload_le {i : Instr} {c : Cmd} (hc : i.cmd = some c) :
    i.payload.length ≤ Config.payloadMax := by
  have hlen := length_payload hc
  have hfmt := length_format_cases c.format
  unfold Config.payloadMax
  omega

theorem exec_of_addr_invalid {i : Instr} {c : Cmd} {s : State} (hc : i.cmd = some c)
    (hw : i.WellFormed) (ha : addrValid s.addr = false) :
    exec i s = .next (s.record (.err .invalidAddress)) := by
  rw [exec_of_wellFormed hc hw]
  rcases buildFrame_cases (Config.opcode c) i.payload s with ⟨hlong, -⟩ | ⟨-, -, hb⟩ | ⟨-, hv, -⟩
  · exact absurd (length_payload_le hc) (Nat.not_le.mpr hlong)
  · exact hb
  · exact absurd hv (by simp [ha])

theorem exec_of_addr_valid {i : Instr} {c : Cmd} {s : State} (hc : i.cmd = some c)
    (hw : i.WellFormed) (ha : addrValid s.addr = true) :
    exec i s = .next ((s.putFrame (frameOf s.addr (Config.opcode c) i.payload)).record
      (.ok (.frame (frameOf s.addr (Config.opcode c) i.payload)))) := by
  rw [exec_of_wellFormed hc hw]
  rcases buildFrame_cases (Config.opcode c) i.payload s with ⟨hlong, -⟩ | ⟨-, hv, -⟩ | ⟨-, -, hb⟩
  · exact absurd (length_payload_le hc) (Nat.not_le.mpr hlong)
  · exact absurd ha (by simp [hv])
  · exact hb

/-- Settles O36: legal arguments lead to the frame builder, which refuses the stored address. -/
theorem invalidStoredAddressIsReported : Obligations.InvalidStoredAddressIsReported := by
  intro i s hp hw ha
  obtain ⟨c, hc⟩ := port_eq_command_iff.mp hp
  exact exec_of_addr_invalid hc hw ha

/-- All ten bytes are written, so nothing of an earlier frame is left (10_state.md R24). -/
theorem State.putFrame_buf_eq {s u : State} (hs : Memory.wf s.buf) (hu : Memory.wf u.buf)
    {f : List Byte} (h : f.length ≤ Config.bufCap) :
    (s.putFrame f).buf = (u.putFrame f).buf :=
  Memory.ext_of_wf (State.wf_putFrame hs h) (State.wf_putFrame hu h) fun i hi => by
    rw [State.read_putFrame s h, State.read_putFrame u h, if_pos hi, if_pos hi]

/-- Settles O54: an illegal operand's error, a response's result and `InvalidAddress` are recorded
alone; a frame is made of the address and the instruction and fills the whole buffer. -/
theorem encodeIsPure : Obligations.EncodeIsPure := by
  intro i s u hs hu haddr
  cases hw : i.wellFormed with
  | false =>
    obtain ⟨e, -, hraise⟩ := exec_of_illFormed hw
    exact ⟨_, _, _, hraise s, hraise u, rfl, rfl, nofun⟩
  | true =>
    cases hc : i.cmd with
    | none =>
      obtain ⟨k, rx, rfl⟩ := eq_ofKind_of_cmd_none hc
      exact ⟨_, _, _, exec_ofKind k rx s, exec_ofKind k rx u, rfl, rfl,
        fun f hf => absurd hf (parse_ne_frame k rx f)⟩
    | some c =>
      cases ha : addrValid s.addr with
      | false =>
        exact ⟨_, _, _, exec_of_addr_invalid hc hw ha, exec_of_addr_invalid hc hw (haddr ▸ ha),
          rfl, rfl, nofun⟩
      | true =>
        have hu' := exec_of_addr_valid hc hw (haddr ▸ ha)
        rw [← haddr] at hu'
        exact ⟨_, _, _, exec_of_addr_valid hc hw ha, hu', rfl, rfl, fun _ _ =>
          ⟨State.putFrame_buf_eq hs hu (length_frameOf_le (length_payload hc)), rfl⟩⟩

/-- Settles O21: the address is accepted exactly in its range. -/
theorem setAddressWritesOnlyValidAddresses : Obligations.SetAddressWritesOnlyValidAddresses :=
  fun _ a _ hp =>
    ⟨fun hin => step_setAddress_of_valid hp ((addrValid_iff a).mpr hin),
      fun hout => step_setAddress_of_invalid hp ((addrValid_eq_false_iff a).mpr hout)⟩

end Sys2Proof.Machine

/-! The frame of a legal command at a valid address, and the motion commands (43_motion.md). -/

namespace Sys2Proof.Machine

open Sys2Proof.Safety

/-- A legal command at a valid stored address completes with its frame (40_primitives.md R105). -/
theorem encodes_of_wellFormed {i : Instr} {c : Cmd} {s : State} (hc : i.cmd = some c)
    (hw : i.WellFormed) (ha : addrValid s.addr = true) :
    Encodes i s (frameOf s.addr (Config.opcode c) i.payload) := by
  unfold Encodes
  rw [exec_of_wellFormed hc hw]
  exact buildFrame_emits (length_payload_le hc) ha

theorem frameOf_nil (a op : Byte) : frameOf a op [] = [a, op, a + op] := by
  simp [frameOf, chk8_cons]

theorem frameOf_singleton (a op p : Byte) : frameOf a op [p] = [a, op, p, a + op + p] := by
  simp [frameOf, chk8_cons, BitVec.add_assoc]

/-- 43_motion.md R150, for either direction. -/
theorem encodes_runMotor {s : State} {speed : BitVec 8} (hv : speed.toNat ≤ 0x7F)
    (ha : addrValid s.addr = true) (d : Direction) :
    Encodes (.runMotor d speed) s
      [s.addr, 0xF6#8, packDs d speed, s.addr + 0xF6#8 + packDs d speed] := by
  rw [← frameOf_singleton]
  exact encodes_of_wellFormed (c := .runMotor) rfl ((wellFormed_runMotor d speed).mpr hv) ha

theorem packDs_clockwise (speed : BitVec 8) : packDs .clockwise speed = speed :=
  BitVec.zero_or

/-- Settles O26: the speed is checked first, then the builder checks the address; the clockwise
direction bit is zero, so that frame carries the speed as it is. -/
theorem runMotorPacksDirectionAndSpeed : Obligations.RunMotorPacksDirectionAndSpeed := by
  intro s speed
  refine ⟨fun hv ha => ⟨?_, encodes_runMotor hv ha .counterClockwise⟩, fun hv ha d => ?_,
    fun hv _ => if_pos hv⟩
  · have h := encodes_runMotor hv ha .clockwise
    rwa [packDs_clockwise] at h
  · exact exec_of_addr_invalid (c := .runMotor) rfl ((wellFormed_runMotor d speed).mpr hv) ha

/-- Settles O28: `stop` has no operand to check, so the builder alone decides. -/
theorem stopEmitsShortestFrame : Obligations.StopEmitsShortestFrame := by
  intro s
  refine ⟨fun ha => ?_, exec_of_addr_invalid (c := .stop) rfl rfl⟩
  rw [← frameOf_nil]
  exact encodes_of_wellFormed (c := .stop) rfl rfl ha

end Sys2Proof.Machine

/-!
What decoding returns (46_decoder.md R175 to R177, R187): every response kind ends in the parser,
and the parser's common checks see a missing byte, a wrong checksum and any one changed byte.
-/

namespace Sys2Proof.Machine

open Sys2Proof.Safety

/-- The result of a response kind is the parser's, in every state (10_state.md R32). -/
theorem returns_ofKind (k : RespKind) (rx : List Byte) (s : State) :
    Returns (.ofKind k rx) s (parse k (interpret k) rx) :=
  exec_ofKind k rx s

/-- An instruction returns one result. -/
theorem returns_unique {i : Instr} {s : State} {q r : Result} (hq : Returns i s q)
    (hr : Returns i s r) : q = r := by
  have h := hq.symm.trans hr
  simpa using h

theorem returns_invalidPacket {k : RespKind} {rx : List Byte}
    (h : packetOk (Config.responseLength k) rx ≠ true) (s : State) :
    Returns (.ofKind k rx) s (.err .invalidPacket) := by
  have hparse : parse k (interpret k) rx = .err .invalidPacket := if_neg h
  exact hparse ▸ returns_ofKind k rx s

/-- Only bytes that pass the common checks give anything but `InvalidPacket`. -/
theorem packetOk_of_returns {k : RespKind} {rx : List Byte} {s : State} {r : Result}
    (h : Returns (.ofKind k rx) s r) (hr : r ≠ .err .invalidPacket) :
    packetOk (Config.responseLength k) rx = true := by
  by_contra hno
  exact hr (returns_unique h (returns_invalidPacket hno s))

/-- Of enough bytes, the `n`-th decides whether the first `n` are a frame (46_decoder.md R177). -/
theorem packetOk_append_cons {n : Nat} {body : List Byte} (hn : body.length + 1 = n) (ck : Byte)
    (tail : List Byte) : packetOk n (body ++ ck :: tail) = true ↔ ck = chk8 body := by
  have htake : (body ++ ck :: tail).take n = body ++ [ck] := by
    subst hn
    simp [List.take_append]
  have hlen : n ≤ (body ++ ck :: tail).length := by
    simp only [List.length_append, List.length_cons]
    omega
  rw [packetOk_iff, htake, frameValid_concat]
  exact and_iff_right hlen

/-- Two valid frames never differ in one byte alone: behind it stands the checksum of both, or it is
itself the checksum (40_primitives.md R91). -/
theorem eq_of_frameValid_append_cons {p q : List Byte} {b c : Byte}
    (hb : frameValid (p ++ b :: q) = true) (hc : frameValid (p ++ c :: q) = true) : b = c := by
  cases q using List.reverseRecOn with
  | nil => exact ((frameValid_concat p b).mp hb).trans ((frameValid_concat p c).mp hc).symm
  | append_singleton q ck =>
    rw [← List.cons_append, ← List.append_assoc, frameValid_concat] at hb hc
    by_contra hne
    exact checksumSeesOneChangedByte.1 p q b c hne (hb.symm.trans hc)

/-- One changed byte among the first `n` of a packet is seen. -/
theorem not_packetOk_set {n i : Nat} {rx : List Byte} {old new : Byte} (h : packetOk n rx = true)
    (hi : i < n) (hold : rx[i]? = some old) (hne : new ≠ old) :
    packetOk n (rx.set i new) ≠ true := by
  intro hset
  rw [packetOk_iff] at h hset
  obtain ⟨hlen, hvalid⟩ := h
  obtain ⟨-, hvalid'⟩ := hset
  obtain ⟨hirx, rfl⟩ := List.getElem?_eq_some_iff.mp hold
  have hlt : i < (rx.take n).length := by
    rw [List.length_take]
    omega
  obtain ⟨p, q, hsplit, -, hsplit'⟩ := List.exists_of_set (a' := new) hlt
  rw [List.getElem_take] at hsplit
  rw [List.take_set, hsplit'] at hvalid'
  rw [hsplit] at hvalid
  exact hne (eq_of_frameValid_append_cons hvalid' hvalid)

/-- Settles O39: a context selects a kind, and the result of a kind is the parser's. -/
theorem decodeIsStateless : Obligations.DecodeIsStateless := fun c rx =>
  ⟨parse c.kind (interpret c.kind) rx, returns_ofKind c.kind rx⟩

/-- Settles O40: the common checks refuse too few bytes and a last byte that is no checksum. -/
theorem shortOrCorruptResponsesAreRejected :
    Obligations.ShortOrCorruptResponsesAreRejected := by
  intro k rx s
  refine ⟨fun hshort => ?_, ?_⟩
  · refine returns_invalidPacket (fun h => ?_) s
    exact absurd ((packetOk_iff _ rx).mp h).1 (Nat.not_le.mpr hshort)
  · rintro body tail ck hn rfl hck
    exact returns_invalidPacket (mt (packetOk_append_cons hn ck tail).mp hck) s

/-- Settles O45: what gave another result passed the common checks, and they see the change. -/
theorem oneCorruptedByteIsRejected : Obligations.OneCorruptedByteIsRejected := by
  intro k rx r n old new s h hr hn hold hne
  exact returns_invalidPacket (not_packetOk_set (packetOk_of_returns h hr) hn hold hne) s

end Sys2Proof.Machine

/-!
How operations end (60_exceptions.md R200, R212): every instruction completes, an error is recorded
alone, and only words that are no instruction are turned away (R222).
-/

namespace Sys2Proof

open Machine

/-- The bytes of a table word are the number given, in the word's whole width (30_encoding.md R77). -/
theorem length_beGetU_of_wordBytes {nbits w : Nat} {bytes : List Byte}
    (h : wordBytes nbits w = .ok bytes) : 8 * bytes.length = nbits ∧ beGetU bytes = w := by
  rcases wordBytes_cases nbits w with ⟨hwhole, hfits, hok⟩ | ⟨-, herr⟩
  · cases hok.symm.trans h
    have hwidth : 8 * (nbits / 8) = nbits := by omega
    have hcap : 256 ^ (nbits / 8) = 2 ^ nbits := by
      rw [show 256 = 2 ^ 8 from rfl, ← Nat.pow_mul, hwidth]
    exact ⟨by rw [length_bePut, hwidth], by rw [beGetU_bePut, hcap, Nat.mod_eq_of_lt hfits]⟩
  · cases herr.symm.trans h

theorem decodeWord_of_not_fits {nbits w : Nat} (h : nbits % 8 ≠ 0 ∨ 2 ^ nbits ≤ w) :
    decodeWord nbits w = .error .width := by
  have hbytes : wordBytes nbits w = .error .width := if_neg (by omega)
  rw [decodeWord, hbytes]

theorem decodeTableWord_of_error {nbits w : Nat} {why : DecodeError}
    (h : decodeWord nbits w = .error why) : decodeTableWord nbits w = none := by
  rw [decodeTableWord, h, Except.toOption]

end Sys2Proof

namespace Sys2Proof.Machine

/-- Settles O55: an instruction records one result and nothing else, or it puts the frame it
returns. -/
theorem everyInstructionCompletes : Obligations.EveryInstructionCompletes := by
  intro i s
  rcases exec_cases i s with ⟨r, -, hx⟩ | ⟨c, -, -, hx⟩
  · exact ⟨_, r, hx, rfl, rfl, rfl, fun _ => ⟨rfl, rfl⟩⟩
  · exact ⟨_, _, hx, rfl, rfl, rfl, fun hno => absurd rfl (hno _)⟩

/-- An operation of the host completes, unless it is words that the decoder rejects. -/
theorem serve_completes_or_refuses (r : Request) (s : State) :
    (∃ t, serve r s = .next t) ∨
    ∃ why, ((∃ p bytes, r = .words p bytes ∧ decode p bytes = .error why) ∨
        ∃ nbits w, r = .tableWord nbits w ∧ decodeWord nbits w = .error why) ∧
      serve r s = .refused (.undecodable why) := by
  rcases serve_cases r s with h | ⟨a, -, h⟩ | ⟨a, -, -, h⟩ | ⟨i, h⟩ | hrefused
  · exact .inl ⟨_, h⟩
  · exact .inl ⟨_, h⟩
  · exact .inl ⟨_, h⟩
  · obtain ⟨t, -, hx, -⟩ := everyInstructionCompletes i s
    exact .inl ⟨t, h.trans hx⟩
  · exact .inr hrefused

/-- Settles O18: a step is idle or serves the oldest operation, which completes unless the decoder
rejects its words. -/
theorem nothingStopsButUndecodableWords : Obligations.NothingStopsButUndecodableWords := by
  intro s
  rcases step_cases s with ⟨-, hidle⟩ | ⟨r, rest, hp, hserve⟩
  · rw [hidle]
    exact ⟨nofun, nofun⟩
  rw [hserve]
  rcases serve_completes_or_refuses r (s.withPending rest) with ⟨t, h⟩ | ⟨why, hwords, h⟩
  · rw [h]
    exact ⟨nofun, nofun⟩
  · rw [h]
    refine ⟨nofun, fun w hw => ?_⟩
    cases hw
    refine ⟨rest, why, rfl, ?_⟩
    rcases hwords with ⟨p, bytes, rfl, hd⟩ | ⟨nbits, n, rfl, hd⟩
    · exact .inl ⟨p, bytes, hp, hd⟩
    · exact .inr ⟨nbits, n, hp, hd⟩

/-- An instruction that returns an error has recorded it and nothing else. -/
theorem exec_returns_error {i : Instr} {s t : State} {e : Err} (hx : exec i s = .next t)
    (hr : t.results = s.results ++ [.err e]) : t = s.record (.err e) := by
  rcases exec_cases i s with ⟨r, -, h⟩ | ⟨c, -, -, h⟩ <;> cases h.symm.trans hx
  · obtain rfl : r = .err e := by simpa using hr
    rfl
  · simp at hr

/-- So has every operation of the host. -/
theorem serve_returns_error {r : Request} {s t : State} {e : Err} (h : serve r s = .next t)
    (hr : t.results = s.results ++ [.err e]) : t = s.record (.err e) := by
  rcases serve_next h with ⟨-, rfl⟩ | ⟨a, -, -, rfl⟩ | ⟨a, -, -, rfl⟩ | ⟨i, hx⟩
  · simp at hr
  · simp at hr
  · obtain rfl : Err.invalidAddress = e := by simpa using hr
    rfl
  · exact exec_returns_error hx hr

/-- Settles O38: an error is recorded alone, and `decode` records its result alone. -/
theorem errorLeavesStateUnchanged : Obligations.ErrorLeavesStateUnchanged := by
  refine ⟨fun r s t e => serve_returns_error, fun c rx s t h => ?_⟩
  obtain ⟨r, hdecode⟩ := decodeIsStateless c rx
  cases (hdecode s).symm.trans h
  rfl

/-- Settles O56: whole bytes hold the number modulo the word's capacity, which a fitting number is
below; any other number or width has no bytes to decode. -/
theorem tableWordsThatDoNotFitAreRefused : Obligations.TableWordsThatDoNotFitAreRefused := by
  refine fun nbits w => ⟨fun _ => length_beGetU_of_wordBytes,
    fun hwhole hfits => ⟨_, if_pos ⟨hwhole, hfits⟩⟩, fun hout => ?_⟩
  have hd := decodeWord_of_not_fits hout
  exact ⟨decodeTableWord_of_error hd, fun s =>
    (step_withFetchWord s nbits w).trans (runDecoded_of_error hd s)⟩

/-- Settles O33: the range is checked before anything is written. -/
theorem configurationRangesAreEnforced : Obligations.ConfigurationRangesAreEnforced := by
  refine fun s => ⟨fun idx hi => if_pos hi, fun sub hs => ?_, fun v hv => if_pos hv⟩
  have hout : sub.toNat < 1 ∨ 256 < sub.toNat := by omega
  exact if_pos hout

end Sys2Proof.Machine

/-!
The frames of the read, configuration, motion, tuning and save commands (41_read.md to
45_save_clear.md), one lemma per frame format: the payload of a legal command between the address,
the opcode and the checksum.
-/

namespace Sys2Proof.Machine

open Sys2Proof.Safety

section Formats

variable {i : Instr} {c : Cmd} {s : State}

/-- Format CF0, 30_encoding.md R61. -/
theorem encodes_noPayload (hc : i.cmd = some c) (hw : i.WellFormed) (hp : i.payload = [])
    (ha : addrValid s.addr = true) :
    Encodes i s [s.addr, Config.opcode c, s.addr + Config.opcode c] := by
  rw [← frameOf_nil, ← hp]
  exact encodes_of_wellFormed hc hw ha

/-- Format CF1, 30_encoding.md R61. -/
theorem encodes_onePayload {p : Byte} (hc : i.cmd = some c) (hw : i.WellFormed)
    (hp : i.payload = [p]) (ha : addrValid s.addr = true) :
    Encodes i s [s.addr, Config.opcode c, p, s.addr + Config.opcode c + p] := by
  rw [← frameOf_singleton, ← hp]
  exact encodes_of_wellFormed hc hw ha

theorem frameOf_pair (a op h l : Byte) :
    frameOf a op [h, l] = [a, op, h, l, a + op + h + l] := by
  simp [frameOf, chk8_cons, BitVec.add_assoc]

/-- Format CF2, 30_encoding.md R61. -/
theorem encodes_twoPayload {h l : Byte} (hc : i.cmd = some c) (hw : i.WellFormed)
    (hp : i.payload = [h, l]) (ha : addrValid s.addr = true) :
    Encodes i s [s.addr, Config.opcode c, h, l, s.addr + Config.opcode c + h + l] := by
  rw [← frameOf_pair, ← hp]
  exact encodes_of_wellFormed hc hw ha

end Formats

/-- Settles O23: a read command is of format CF0. -/
theorem readCommandsEmitMinimalFrames : Obligations.ReadCommandsEmitMinimalFrames := fun _ ha =>
  ⟨encodes_noPayload (c := .readEncoder) rfl rfl rfl ha,
    encodes_noPayload (c := .readPulses) rfl rfl rfl ha,
    encodes_noPayload (c := .readAngle) rfl rfl rfl ha,
    encodes_noPayload (c := .readAngleError) rfl rfl rfl ha,
    encodes_noPayload (c := .readEnPin) rfl rfl rfl ha,
    encodes_noPayload (c := .readReleaseStatus) rfl rfl rfl ha,
    encodes_noPayload (c := .readShaftStatus) rfl rfl rfl ha⟩

/-- Settles O24: an argument in its range makes the command legal, and its byte is the payload. -/
theorem checkedConfigurationCommandsEmitFrames :
    Obligations.CheckedConfigurationCommandsEmitFrames := by
  refine fun s ha => ⟨fun idx hi => ?_, fun sub hmin hmax => ?_, fun v hv => ?_⟩
  · exact encodes_onePayload (c := .setCurrentLimit) rfl
      ((wellFormed_setCurrentLimit idx).mpr hi) rfl ha
  · exact encodes_onePayload (c := .setSubdivision) rfl
      ((wellFormed_setSubdivision sub).mpr ⟨hmin, hmax⟩) rfl ha
  · exact encodes_onePayload (c := .setZeroSpeed) rfl
      ((wellFormed_setZeroSpeed v).mpr hv) rfl ha

/-- Settles O25: every member of a closed type is legal, and its byte is the payload. -/
theorem enumeratedConfigurationCommandsEmitFrames :
    Obligations.EnumeratedConfigurationCommandsEmitFrames := by
  refine fun s ha => ⟨fun e p hp => ?_, fun d p hp => ?_, fun b p hp => ?_, fun z p hp => ?_⟩
  · have hbyte : [e.toByte] = [p] := by cases e <;> simp_all [EnableLogic.toByte]
    exact encodes_onePayload (c := .setEnableLogic) rfl rfl hbyte ha
  · have hbyte : [d.toByte] = [p] := by cases d <;> simp_all [Direction.toByte]
    exact ⟨encodes_onePayload (c := .setDirection) rfl rfl hbyte ha,
      encodes_onePayload (c := .setZeroDirection) rfl rfl hbyte ha⟩
  · have hbyte : [boolToByte b] = [p] := by
      cases b <;> simp_all [boolToByte, Config.boolTrue, Config.boolFalse]
    exact ⟨encodes_onePayload (c := .setAutoScreenOff) rfl rfl hbyte ha,
      encodes_onePayload (c := .setStallProtection) rfl rfl hbyte ha,
      encodes_onePayload (c := .setInterpolation) rfl rfl hbyte ha⟩
  · have hbyte : [z.toByte] = [p] := by cases z <;> simp_all [ZeroMode.toByte]
    exact encodes_onePayload (c := .setZeroMode) rfl rfl hbyte ha

/-- Settles O29: the byte of on or off is the payload, and the checksum adds it to the opcode. -/
theorem enableMotorEmitsOnOffByte : Obligations.EnableMotorEmitsOnOffByte := by
  intro s ha
  have hon := encodes_onePayload (i := .enableMotor true) (c := .enableMotor) rfl rfl rfl ha
  have hoff := encodes_onePayload (i := .enableMotor false) (c := .enableMotor) rfl rfl rfl ha
  rw [BitVec.add_assoc] at hon hoff
  exact ⟨hon, hoff⟩

/-- Settles O31: the sentinel is the payload. -/
theorem saveClearEmitsSentinel : Obligations.SaveClearEmitsSentinel := fun _ ha =>
  ⟨encodes_onePayload (c := .saveClear) rfl rfl rfl ha,
    encodes_onePayload (c := .saveClear) rfl rfl rfl ha⟩

/-- One byte of `be_put` as a quotient. -/
theorem ofNat_shiftRight (v k : Nat) :
    BitVec.ofNat 8 (v >>> (8 * k)) = BitVec.ofNat 8 (v / 256 ^ k % 256) := by
  apply BitVec.eq_of_toNat_eq
  rw [BitVec.toNat_ofNat, BitVec.toNat_ofNat, Nat.shiftRight_eq_div_pow, Nat.pow_mul, Nat.mod_mod]

theorem u16Payload_eq (v : BitVec 16) :
    u16Payload v = [BitVec.ofNat 8 (v.toNat / 256), BitVec.ofNat 8 (v.toNat % 256)] := by
  have hv := v.isLt
  have htop : v.toNat / 256 % 256 = v.toNat / 256 := Nat.mod_eq_of_lt (by omega)
  simp only [u16Payload, bePut, ofNat_shiftRight, pow_one, pow_zero, Nat.div_one, htop]

theorem u24Payload_eq {p : BitVec 32} (hp : p.toNat ≤ 0xFFFFFF) :
    u24Payload p = [BitVec.ofNat 8 (p.toNat / 65536), BitVec.ofNat 8 (p.toNat / 256 % 256),
      BitVec.ofNat 8 (p.toNat % 256)] := by
  have htop : p.toNat / 256 ^ 2 % 256 = p.toNat / 65536 := Nat.mod_eq_of_lt (by omega)
  simp only [u24Payload, bePut, ofNat_shiftRight, pow_one, pow_zero, Nat.div_one, htop]

/-- Settles O30: the value's two bytes are the payload, and a torque within the cap is legal. -/
theorem tuningCommandsEmitBigEndianValue : Obligations.TuningCommandsEmitBigEndianValue := by
  rintro s v h l ha rfl rfl
  have hp := u16Payload_eq v
  exact ⟨encodes_twoPayload (c := .setKp) rfl rfl hp ha,
    encodes_twoPayload (c := .setKi) rfl rfl hp ha,
    encodes_twoPayload (c := .setKd) rfl rfl hp ha,
    encodes_twoPayload (c := .setAcceleration) rfl rfl hp ha,
    fun hv =>
      encodes_twoPayload (c := .setMaxTorque) rfl ((wellFormed_setMaxTorque v).mpr hv) hp ha⟩

/-- Settles O27: a legal speed and count make the command legal; the payload is the packed byte and
the three bytes of the count. -/
theorem runPulsesEmitsSevenBytes : Obligations.RunPulsesEmitsSevenBytes := by
  intro s d speed pulses ha hv hn
  have hw := (wellFormed_runPulses d speed pulses).mpr ⟨hv, hn⟩
  have henc := encodes_of_wellFormed (c := .runPulses) rfl hw ha
  rw [Instr.payload, u24Payload_eq hn] at henc
  refine ⟨packDs d speed, ?_, ?_, henc⟩
  · rintro rfl
    exact packDs_clockwise speed
  · rintro rfl
    rfl

end Sys2Proof.Machine

/-!
Which error an illegal operand gives (60_exceptions.md R203 to R207): the rows of the error table
whose cause is an operand, each raised before the stored address is looked at (R211).
-/

namespace Sys2Proof.Machine

open Sys2Proof.Safety

/-- The instruction has an operand outside its range, and this is that operand's error. -/
inductive OperandError : Instr → Err → Prop
  | motorSpeed {d : Direction} {v : BitVec 8} (hv : 0x7F < v.toNat) :
    OperandError (.runMotor d v) .invalidSpeed
  | pulsesSpeed {d : Direction} {v : BitVec 8} {p : BitVec 32} (hv : 0x7F < v.toNat) :
    OperandError (.runPulses d v p) .invalidSpeed
  | pulseCount {d : Direction} {v : BitVec 8} {p : BitVec 32} (hv : v.toNat ≤ 0x7F)
      (hp : 0xFFFFFF < p.toNat) : OperandError (.runPulses d v p) .invalidPulseCount
  | zeroSpeed {v : BitVec 8} (hv : 4 < v.toNat) : OperandError (.setZeroSpeed v) .invalidSpeed
  | currentLimit {idx : BitVec 8} (hi : 15 < idx.toNat) :
    OperandError (.setCurrentLimit idx) .invalidCurrentLimit
  | subdivision {n : BitVec 16} (hn : n.toNat = 0 ∨ 256 < n.toNat) :
    OperandError (.setSubdivision n) .invalidSubdivision
  | torque {v : BitVec 16} (hv : 0x4B0 < v.toNat) : OperandError (.setMaxTorque v) .invalidTorque

theorem OperandError.returns {i : Instr} {e : Err} (h : OperandError i e) (s : State) :
    Returns i s (.err e) := by
  cases h with
  | motorSpeed hv | pulsesSpeed hv | zeroSpeed hv | torque hv => exact if_pos hv
  | currentLimit hi => exact if_pos hi
  | pulseCount hv hp => exact (if_neg (Nat.not_lt.mpr hv)).trans (if_pos hp)
  | subdivision hn => exact (configurationRangesAreEnforced s).2.1 _ hn

/-- An ill-formed instruction is a command with an operand outside its range. -/
theorem operandError_of_illFormed {i : Instr} (hw : i.wellFormed = false) :
    ∃ e, OperandError i e := by
  have hw := Bool.eq_false_iff.mp hw
  cases i with
  | setCurrentLimit idx =>
    rw [ne_eq, wellFormed_setCurrentLimit, not_le] at hw
    exact ⟨_, .currentLimit hw⟩
  | setSubdivision n =>
    rw [ne_eq, wellFormed_setSubdivision] at hw
    exact ⟨_, .subdivision (by omega)⟩
  | setZeroSpeed v =>
    rw [ne_eq, wellFormed_setZeroSpeed, not_le] at hw
    exact ⟨_, .zeroSpeed hw⟩
  | runMotor d v =>
    rw [ne_eq, wellFormed_runMotor, not_le] at hw
    exact ⟨_, .motorSpeed hw⟩
  | runPulses d v p =>
    rw [ne_eq, wellFormed_runPulses, not_and, not_le] at hw
    by_cases hv : v.toNat ≤ 0x7F
    · exact ⟨_, .pulseCount hv (hw hv)⟩
    · exact ⟨_, .pulsesSpeed (not_le.mp hv)⟩
  | setMaxTorque v =>
    rw [ne_eq, wellFormed_setMaxTorque, not_le] at hw
    exact ⟨_, .torque hw⟩
  | _ => exact absurd rfl hw

/-- Settles O35: an operand's error is returned in every state, and the count's row asks for a legal
speed. -/
theorem speedIsCheckedBeforePulseCount : Obligations.SpeedIsCheckedBeforePulseCount :=
  fun s _ _ _ => ⟨fun hv => (OperandError.pulsesSpeed hv).returns s,
    fun hv hp => (OperandError.pulseCount hv hp).returns s,
    fun _ hv => (OperandError.zeroSpeed hv).returns s⟩

end Sys2Proof.Machine

/-!
Signed fields (40_primitives.md R96): the signed get is the balanced residue of the unsigned one, so
the range and the round trip are those of `Int.bmod`.
-/

namespace Sys2Proof.Machine

theorem beGetU_lt_two_pow (s : List Byte) : beGetU s < 2 ^ (8 * s.length) := by
  rw [Nat.pow_mul]
  exact beGetU_lt s

theorem beGetS_eq_bmod (s : List Byte) : beGetS s = (beGetU s : Int).bmod (2 ^ (8 * s.length)) := by
  have hlt := beGetU_lt_two_pow s
  have hmod : (beGetU s : Int) % (2 ^ (8 * s.length) : Nat) = beGetU s := by
    exact_mod_cast Nat.mod_eq_of_lt hlt
  rw [Int.bmod_def, hmod, beGetS]
  cases hn : 8 * s.length with
  | zero =>
    have hzero : beGetU s = 0 := by simpa [hn] using hlt
    simp [hzero]
  | succ m =>
    have hnat : (2 : Nat) ^ (m + 1) = 2 * 2 ^ m := pow_succ' 2 m
    have hint : (2 : Int) ^ (m + 1) = 2 * (2 ^ m : Nat) := by rw [pow_succ']; norm_cast
    rw [Nat.add_sub_cancel, hnat, hint]
    split_ifs <;> omega

/-- Half of what a field of `n` bytes can hold. -/
theorem two_pow_eq_two_mul {n : Nat} (hn : 0 < n) : 2 ^ (8 * n) = 2 * 2 ^ (8 * n - 1) := by
  rw [← pow_succ']
  congr 1
  omega

/-- A signed field lies in the range of its width. -/
theorem beGetS_range {s : List Byte} {n : Nat} (hs : s.length = n) (hn : 0 < n) :
    -2 ^ (8 * n - 1) ≤ beGetS s ∧ beGetS s < 2 ^ (8 * n - 1) := by
  have hpos : 0 < 2 ^ (8 * n) := Nat.two_pow_pos _
  have hlow := Int.le_bmod (x := beGetU s) hpos
  have hhigh := Int.bmod_lt (x := beGetU s) hpos
  rw [two_pow_eq_two_mul hn] at hlow hhigh
  rw [beGetS_eq_bmod, hs, two_pow_eq_two_mul hn]
  push_cast at *
  omega

/-- A value of the signed range comes back from the field it is put into. -/
theorem beGetS_bePut {n : Nat} {v : Int} (hn : 0 < n) (hlow : -2 ^ (8 * n - 1) ≤ v)
    (hhigh : v < 2 ^ (8 * n - 1)) : beGetS (bePut (v % 2 ^ (8 * n)).toNat n) = v := by
  have hcap : 0 < (2 : Int) ^ (8 * n) := by positivity
  have hres : ((v % 2 ^ (8 * n)).toNat : Int) = v % (2 ^ (8 * n) : Nat) := by
    rw [Int.toNat_of_nonneg (Int.emod_nonneg _ hcap.ne')]
    norm_cast
  have hfits : (v % 2 ^ (8 * n)).toNat < 2 ^ (8 * n) := by
    zify
    rw [Int.toNat_of_nonneg (Int.emod_nonneg _ hcap.ne')]
    exact Int.emod_lt_of_pos _ hcap
  rw [beGetS_eq_bmod, length_bePut, bigEndianRoundTrip.1 _ _ hfits, hres, Int.emod_bmod,
    two_pow_eq_two_mul hn]
  apply Int.bmod_eq_of_le_mul_two <;> push_cast <;> omega

/-- The first byte's top bit is the field's. -/
theorem two_pow_le_beGetU_cons (b : Byte) (s : List Byte) :
    2 ^ (8 * (b :: s).length - 1) ≤ beGetU (b :: s) ↔ 128 ≤ b.toNat := by
  have hs := beGetU_lt s
  have hhalf : 2 ^ (8 * (b :: s).length - 1) = 128 * 256 ^ s.length := by
    rw [show 256 = 2 ^ 8 from rfl, show 128 = 2 ^ 7 from rfl, ← Nat.pow_mul, ← Nat.pow_add]
    congr 1
    simp only [List.length_cons]
    omega
  rw [hhalf, beGetU]
  constructor
  · intro h
    by_contra hb
    have hb' : (b.toNat + 1) * 256 ^ s.length ≤ 128 * 256 ^ s.length :=
      Nat.mul_le_mul_right _ (by omega)
    rw [Nat.add_mul] at hb'
    omega
  · intro h
    exact (Nat.mul_le_mul_right _ h).trans (Nat.le_add_right _ _)

/-- Settles O6: the sign is the top bit of the first byte, and a value of the range is its own
balanced residue. -/
theorem signedFieldsAreTwosComplement : Obligations.SignedFieldsAreTwosComplement := by
  refine ⟨fun b s => ?_, fun _ _ => beGetS_bePut⟩
  exact if_congr (two_pow_le_beGetU_cons b s) rfl rfl

end Sys2Proof.Machine

/-!
What the parser reads of a response (46_decoder.md R177 to R185): the status byte or the fields
between the header and the checksum, and nothing else.
-/

namespace Sys2Proof

theorem AckStatus.ofByte_eq_some_iff (b : Byte) (a : AckStatus) :
    AckStatus.ofByte b = some a ↔ a.toByte = b := by
  constructor
  · unfold AckStatus.ofByte
    split_ifs <;> rintro ⟨⟩ <;> exact Eq.symm ‹_›
  · rintro rfl
    cases a <;> rfl

theorem EnPinStatus.ofByte_eq_some_iff (b : Byte) (p : EnPinStatus) :
    EnPinStatus.ofByte b = some p ↔ p.toByte = b := by
  constructor
  · unfold EnPinStatus.ofByte
    split_ifs <;> rintro ⟨⟩ <;> exact Eq.symm ‹_›
  · rintro rfl
    cases p <;> rfl

theorem ShaftStatus.ofByte_eq_some_iff (b : Byte) (h : ShaftStatus) :
    ShaftStatus.ofByte b = some h ↔ h.toByte = b := by
  constructor
  · unfold ShaftStatus.ofByte
    split_ifs <;> rintro ⟨⟩ <;> exact Eq.symm ‹_›
  · rintro rfl
    cases h <;> rfl

/-- Settles O7: each inverse table compares the byte with the members' bytes in turn. -/
theorem enumerationTablesAreBijections : Obligations.EnumerationTablesAreBijections :=
  ⟨Direction.ofByte_eq_some_iff, EnableLogic.ofByte_eq_some_iff, ZeroMode.ofByte_eq_some_iff,
    SaveClear.ofByte_eq_some_iff, boolOfByte_eq_some_iff, AckStatus.ofByte_eq_some_iff,
    EnPinStatus.ofByte_eq_some_iff, ShaftStatus.ofByte_eq_some_iff⟩

end Sys2Proof

namespace Sys2Proof.Machine

open Sys2Proof.Safety

@[simp] theorem statusByte_cons (h st : Byte) (tail : List Byte) :
    statusByte (h :: st :: tail) = st := by
  simp [statusByte, memRead, slice, beGetU]

theorem ackResult_cons (h st : Byte) (tail : List Byte) :
    ackResult (h :: st :: tail) =
      if st = 0x01#8 then .ok .ack
      else if st = 0x00#8 then .err .deviceReportedFailure else .err .invalidResponse := by
  simp only [ackResult, statusByte_cons, AckStatus.ofByte, Config.ackOk, Config.ackFail]
  split_ifs <;> rfl

theorem enPinResult_cons (h st : Byte) (tail : List Byte) :
    enPinResult (h :: st :: tail) =
      if st = 0x01#8 then .ok (.enPin .enabled)
      else if st = 0x02#8 then .ok (.enPin .disabled) else .err .invalidResponse := by
  simp only [enPinResult, statusByte_cons, EnPinStatus.ofByte]
  split_ifs <;> rfl

theorem shaftResult_cons (h st : Byte) (tail : List Byte) :
    shaftResult (h :: st :: tail) =
      if st = 0x01#8 then .ok (.shaft .blocked)
      else if st = 0x02#8 then .ok (.shaft .unblocked) else .err .invalidResponse := by
  simp only [shaftResult, statusByte_cons, ShaftStatus.ofByte]
  split_ifs <;> rfl

/-- A frame of its kind's length returns its interpretation, whatever stands behind it. -/
theorem returns_interpret {k : RespKind} {body : List Byte} {ck : Byte}
    (hn : body.length + 1 = Config.responseLength k) (hck : ck = chk8 body) (tail : List Byte)
    (s : State) :
    Returns (.ofKind k (body ++ ck :: tail)) s (interpret k (body ++ ck :: tail)) := by
  have hparse : parse k (interpret k) (body ++ ck :: tail) = interpret k (body ++ ck :: tail) :=
    if_pos ((packetOk_append_cons hn ck tail).mpr hck)
  exact hparse ▸ returns_ofKind k _ s

theorem chk8_pair (h st : Byte) : chk8 [h, st] = h + st := by
  simp [chk8_cons]

/-- A three-byte response of header, status byte and checksum, 46_decoder.md R180, R184, R185. -/
theorem returns_status {k : RespKind} (hk : Config.responseLength k = 3) (h st : Byte)
    (tail : List Byte) (s : State) :
    Returns (.ofKind k (h :: st :: (h + st) :: tail)) s
      (interpret k (h :: st :: (h + st) :: tail)) :=
  returns_interpret (body := [h, st]) hk.symm (chk8_pair h st).symm tail s

/-- Settles O41: the frame is valid, so the status table decides. -/
theorem acknowledgementsByStatusByte : Obligations.AcknowledgementsByStatusByte := by
  intro h st tail s
  rw [← ackResult_cons h st ((h + st) :: tail)]
  exact returns_status (k := .ack) rfl h st tail s

/-- Settles O42: the frame is valid, so the kind's status table decides. -/
theorem statusReadsByStatusByte : Obligations.StatusReadsByStatusByte := by
  intro h st tail s
  rw [← enPinResult_cons h st ((h + st) :: tail), ← shaftResult_cons h st ((h + st) :: tail)]
  exact ⟨returns_status (k := .enPin) rfl h st tail s,
    returns_status (k := .shaft) rfl h st tail s⟩

theorem length_slice {s : List Byte} {j : Nat} (i : Nat) (hj : j ≤ s.length) :
    (slice s i j).length = j - i := by
  rw [slice, List.length_take, List.length_drop]
  omega

/-- A field is what stands between the bytes before and the bytes behind it. -/
theorem slice_append {p f q : List Byte} {i j : Nat} (hi : p.length = i)
    (hj : p.length + f.length = j) : slice (p ++ (f ++ q)) i j = f := by
  subst hi hj
  simp [slice]

/-- Bytes behind a field do not touch it. -/
theorem slice_append_tail {s : List Byte} {j : Nat} (t : List Byte) (i : Nat)
    (hj : j ≤ s.length) : slice (s ++ t) i j = slice s i j := by
  by_cases hi : i ≤ s.length
  · rw [slice, slice, List.drop_append_of_le_length hi,
      List.take_append_of_le_length (by rw [List.length_drop]; omega)]
  · have hempty : j - i = 0 := by omega
    simp [slice, hempty]

theorem i32Result_append {f : List Byte} (hf : f.length = 4) (h : Byte) (q : List Byte) :
    i32Result (h :: f ++ q) = .ok (.int32 (beGetS f)) := by
  have hfield : slice (h :: f ++ q) 1 5 = f := slice_append (p := [h]) rfl (by simp [hf])
  rw [i32Result, hfield]

theorem i16Result_append {f : List Byte} (hf : f.length = 2) (h : Byte) (q : List Byte) :
    i16Result (h :: f ++ q) = .ok (.int16 (beGetS f)) := by
  have hfield : slice (h :: f ++ q) 1 3 = f := slice_append (p := [h]) rfl (by simp [hf])
  rw [i16Result, hfield]

theorem encResult_append {f g : List Byte} (hf : f.length = 4) (hg : g.length = 2) (h : Byte)
    (q : List Byte) : encResult (h :: f ++ g ++ q) = .ok (.encoder (beGetS f) (beGetU g)) := by
  rw [List.append_assoc]
  have hcarry : slice (h :: f ++ (g ++ q)) 1 5 = f := slice_append (p := [h]) rfl (by simp [hf])
  have hvalue : slice (h :: f ++ (g ++ q)) 5 7 = g :=
    slice_append (p := h :: f) (by simp [hf]) (by simp [hf, hg])
  rw [encResult, memRead, hcarry, hvalue]

/-- Settles O44: the field between header and checksum holds the value. -/
theorem signedResponsesGiveTheirValue : Obligations.SignedResponsesGiveTheirValue := by
  refine fun h v tail s => ⟨fun hlow hhigh => ?_, fun hlow hhigh => ?_⟩
  · have hret := returns_interpret (k := .i32) (body := h :: bePut (v % 2 ^ 32).toNat 4)
      (by simp [Config.responseLength]) rfl tail s
    rwa [interpret, i32Result_append (length_bePut _ 4),
      beGetS_bePut (n := 4) (by decide) hlow hhigh] at hret
  · have hret := returns_interpret (k := .i16) (body := h :: bePut (v % 2 ^ 16).toNat 2)
      (by simp [Config.responseLength]) rfl tail s
    rwa [interpret, i16Result_append (length_bePut _ 2),
      beGetS_bePut (n := 2) (by decide) hlow hhigh] at hret

/-- Settles O43: the carry's field and the value's field stand side by side, each read alone. -/
theorem encoderResponseGivesCarryAndValue : Obligations.EncoderResponseGivesCarryAndValue := by
  intro h carry value tail s hlow hhigh hvalue
  have hret := returns_interpret (k := .enc)
    (body := h :: bePut (carry % 2 ^ 32).toNat 4 ++ bePut value 2)
    (by simp [Config.responseLength]) rfl tail s
  rwa [interpret, encResult_append (length_bePut _ 4) (length_bePut _ 2),
    beGetS_bePut (n := 4) (by decide) hlow hhigh, bigEndianRoundTrip.1 2 value hvalue] at hret

/-- The interpretation of a kind reads no byte but those between header and checksum. -/
theorem interpret_congr {k : RespKind} {rx ry : List Byte}
    (h : ∀ i j, 1 ≤ i → j < Config.responseLength k → slice rx i j = slice ry i j) :
    interpret k rx = interpret k ry := by
  cases k with
  | ack => simp only [interpret, ackResult, statusByte, memRead, h 1 2 (by decide) (by decide)]
  | enPin => simp only [interpret, enPinResult, statusByte, memRead, h 1 2 (by decide) (by decide)]
  | shaft => simp only [interpret, shaftResult, statusByte, memRead, h 1 2 (by decide) (by decide)]
  | i16 => simp only [interpret, i16Result, h 1 3 (by decide) (by decide)]
  | i32 => simp only [interpret, i32Result, h 1 5 (by decide) (by decide)]
  | enc =>
    simp only [interpret, encResult, memRead, h 1 5 (by decide) (by decide),
      h 5 7 (by decide) (by decide)]

/-- Bytes that pass the common checks alike and read alike give one result in every state. -/
theorem returns_same {k : RespKind} {rx ry : List Byte}
    (hok : packetOk (Config.responseLength k) rx = packetOk (Config.responseLength k) ry)
    (hread : interpret k rx = interpret k ry) :
    ∃ r, ∀ s, Returns (.ofKind k rx) s r ∧ Returns (.ofKind k ry) s r := by
  have hparse : parse k (interpret k) ry = parse k (interpret k) rx := by
    rw [parse, parse, hok, hread]
  exact ⟨_, fun s => ⟨returns_ofKind k rx s, hparse ▸ returns_ofKind k ry s⟩⟩

theorem packetOk_append {n : Nat} {rx : List Byte} (hn : n ≤ rx.length) (tail : List Byte) :
    packetOk n (rx ++ tail) = packetOk n rx := by
  have hlen : n ≤ (rx ++ tail).length := by
    rw [List.length_append]
    omega
  rw [packetOk, packetOk, decide_eq_true hn, decide_eq_true hlen,
    List.take_append_of_le_length hn]

/-- Settles O46: neither the common checks nor the fields reach behind the first `N` bytes. -/
theorem bytesBehindTheFrameAreIgnored : Obligations.BytesBehindTheFrameAreIgnored :=
  fun _ _ tail hn => returns_same (packetOk_append hn tail).symm
    (interpret_congr fun i _ _ hj => (slice_append_tail tail i (by omega)).symm)

/-- A field behind the header and within the payload is the same under any header and in front of
any bytes. -/
theorem slice_cons_append {p : List Byte} {i j : Nat} (hi : 1 ≤ i) (hj : j ≤ p.length + 1)
    (h : Byte) (q : List Byte) : slice (h :: p ++ q) i j = slice p (i - 1) (j - 1) := by
  rw [slice_append_tail q i (by rw [List.length_cons]; omega)]
  obtain ⟨i, rfl⟩ := Nat.exists_eq_add_of_le' hi
  simp [slice, Nat.sub_add_eq, Nat.sub_right_comm]

/-- Adjusting the checksum by the headers' difference keeps a frame a frame. -/
theorem packetOk_header (h g ck : Byte) (p tail : List Byte) {n : Nat} (hn : p.length + 2 = n) :
    packetOk n (h :: p ++ ck :: tail) = packetOk n (g :: p ++ (ck + (g - h)) :: tail) := by
  rw [Bool.eq_iff_iff, packetOk_append_cons (body := h :: p) hn,
    packetOk_append_cons (body := g :: p) hn, chk8_cons, chk8_cons]
  constructor
  · rintro rfl
    ring
  · intro heq
    linear_combination heq

/-- Settles O47: the header is a summand of the checksum and stands before every field. -/
theorem headerByteIsOnlySummed : Obligations.HeaderByteIsOnlySummed := by
  refine fun k h g ck p tail hn => returns_same (packetOk_header h g ck p tail hn)
    (interpret_congr fun i j hi hj => ?_)
  rw [slice_cons_append hi (by omega), slice_cons_append hi (by omega)]

end Sys2Proof.Machine

/-! The type of a decoded value, fixed by its kind (46_decoder.md R188). -/

namespace Sys2Proof.Machine

/-- The values a response kind can give, each number in the range of its width. -/
def HasKind : RespKind → Value → Prop
  | .ack, v => v = .ack
  | .enPin, v => ∃ p, v = .enPin p
  | .shaft, v => ∃ p, v = .shaft p
  | .i16, v => ∃ n, v = .int16 n ∧ -2 ^ 15 ≤ n ∧ n < 2 ^ 15
  | .i32, v => ∃ n, v = .int32 n ∧ -2 ^ 31 ≤ n ∧ n < 2 ^ 31
  | .enc, v => ∃ carry value, v = .encoder carry value ∧ -2 ^ 31 ≤ carry ∧ carry < 2 ^ 31 ∧
      value < 2 ^ 16

theorem interpret_hasKind {k : RespKind} {rx : List Byte} {v : Value}
    (hn : Config.responseLength k ≤ rx.length) (h : interpret k rx = .ok v) : HasKind k v := by
  cases k with
  | ack =>
    simp only [interpret, ackResult] at h
    split at h <;> cases h
    rfl
  | enPin =>
    simp only [interpret, enPinResult] at h
    split at h <;> cases h
    exact ⟨_, rfl⟩
  | shaft =>
    simp only [interpret, shaftResult] at h
    split at h <;> cases h
    exact ⟨_, rfl⟩
  | i16 =>
    cases h
    have hfour : 4 ≤ rx.length := hn
    exact ⟨_, rfl, beGetS_range (n := 2) (length_slice 1 (by omega)) (by decide)⟩
  | i32 =>
    cases h
    have hsix : 6 ≤ rx.length := hn
    exact ⟨_, rfl, beGetS_range (n := 4) (length_slice 1 (by omega)) (by decide)⟩
  | enc =>
    cases h
    have height : 8 ≤ rx.length := hn
    obtain ⟨hlow, hhigh⟩ := beGetS_range (n := 4) (length_slice (s := rx) (j := 5) 1 (by omega))
      (by decide)
    have hvalue := beGetU_lt_two_pow (slice rx 5 7)
    rw [length_slice 5 (by omega)] at hvalue
    exact ⟨_, _, rfl, hlow, hhigh, hvalue⟩

theorem parse_hasKind {k : RespKind} {rx : List Byte} {v : Value}
    (h : parse k (interpret k) rx = .ok v) : HasKind k v := by
  rcases parse_cases k (interpret k) rx with ⟨-, hp⟩ | ⟨hok, hp⟩
  · cases hp.symm.trans h
  · exact interpret_hasKind ((packetOk_iff _ rx).mp hok).1 (hp.symm.trans h)

/-- What a decode returns is the parser's result. -/
theorem parse_of_exec_ofKind {k : RespKind} {rx : List Byte} {s t : State} {r : Result}
    (hx : exec (.ofKind k rx) s = .next t) (hr : t.results = s.results ++ [r]) :
    parse k (interpret k) rx = r := by
  cases (exec_ofKind k rx s).symm.trans hx
  simpa using hr

/-- Settles O48: the context selects the kind, and the kind fixes the value. -/
theorem resultTypeIsFixedByContext : Obligations.ResultTypeIsFixedByContext := by
  intro c rx s t v hserve hr
  have hkind : HasKind c.kind v := parse_hasKind (parse_of_exec_ofKind hserve hr)
  cases c <;> exact hkind

end Sys2Proof.Machine

/-!
Where an error comes from (60_exceptions.md R201): an operand, the stored address, or the received
bytes, and of those the packet, the status byte or the device.
-/

namespace Sys2Proof.Machine

open Sys2Proof.Safety

/-- The three sources of an error. -/
theorem exec_error_cases {i : Instr} {s t : State} {e : Err} (hx : exec i s = .next t)
    (hr : t.results = s.results ++ [.err e]) :
    OperandError i e ∨
    (e = .invalidAddress ∧ i.port = .command ∧ addrValid s.addr = false) ∨
    ∃ k rx, i = .ofKind k rx ∧ parse k (interpret k) rx = .err e := by
  cases hw : i.wellFormed with
  | false =>
    obtain ⟨e', he'⟩ := operandError_of_illFormed hw
    cases (he'.returns s).symm.trans hx
    obtain rfl : e' = e := by simpa using hr
    exact .inl he'
  | true =>
    cases hc : i.cmd with
    | none =>
      obtain ⟨k, rx, rfl⟩ := eq_ofKind_of_cmd_none hc
      exact .inr (.inr ⟨k, rx, rfl, parse_of_exec_ofKind hx hr⟩)
    | some c =>
      cases ha : addrValid s.addr with
      | false =>
        cases (exec_of_addr_invalid hc hw ha).symm.trans hx
        obtain rfl : Err.invalidAddress = e := by simpa using hr
        exact .inr (.inl ⟨rfl, port_eq_command_iff.mpr ⟨c, hc⟩, rfl⟩)
      | true =>
        cases (exec_of_addr_valid hc hw ha).symm.trans hx
        simp at hr

/-- The last of the first `n + 1` bytes is the checksum of those before (46_decoder.md R177). -/
theorem packetOk_succ_of_getElem? {n : Nat} {rx : List Byte}
    (h : rx[n]? = some (chk8 (rx.take n))) : packetOk (n + 1) rx = true := by
  obtain ⟨hn, -⟩ := List.getElem?_eq_some_iff.mp h
  rw [packetOk_iff, List.take_add_one, h, Option.toList_some, frameValid_concat]
  exact ⟨hn, rfl⟩

/-- A status byte that is an error, under the kind it is one for. -/
theorem interpret_error {k : RespKind} {h st : Byte} {tail : List Byte} {e : Err}
    (he : interpret k (h :: st :: tail) = .err e) :
    (k = .ack ∧ e = .deviceReportedFailure ∧ st = 0x00#8) ∨
    (k = .ack ∧ e = .invalidResponse ∧ st ≠ 0x00#8 ∧ st ≠ 0x01#8) ∨
    ((k = .enPin ∨ k = .shaft) ∧ e = .invalidResponse ∧ st ≠ 0x01#8 ∧ st ≠ 0x02#8) := by
  cases k with
  | ack =>
    rw [interpret, ackResult_cons] at he
    split_ifs at he with hok hfail <;> cases he
    · exact .inl ⟨rfl, rfl, hfail⟩
    · exact .inr (.inl ⟨rfl, rfl, hfail, hok⟩)
  | enPin =>
    rw [interpret, enPinResult_cons] at he
    split_ifs at he with h1 h2
    cases he
    exact .inr (.inr ⟨.inl rfl, rfl, h1, h2⟩)
  | shaft =>
    rw [interpret, shaftResult_cons] at he
    split_ifs at he with h1 h2
    cases he
    exact .inr (.inr ⟨.inr rfl, rfl, h1, h2⟩)
  | i16 | i32 | enc => cases he

theorem responseLength_ge_three (k : RespKind) : 3 ≤ Config.responseLength k := by
  cases k <;> decide

/-- The parser's errors: bytes that fail the common checks, or a status byte that is an error. -/
theorem parse_error_cases {k : RespKind} {rx : List Byte} {e : Err}
    (h : parse k (interpret k) rx = .err e) :
    (e = .invalidPacket ∧ packetOk (Config.responseLength k) rx = false) ∨
    ∃ hd st tail, rx = hd :: st :: tail ∧ interpret k rx = .err e := by
  rcases parse_cases k (interpret k) rx with ⟨hbad, hp⟩ | ⟨hok, hp⟩
  · cases hp.symm.trans h
    exact .inl ⟨rfl, hbad⟩
  · have hlen := ((packetOk_iff _ rx).mp hok).1
    have hmin := responseLength_ge_three k
    match rx, hlen with
    | [], hlen | [_], hlen => simp at hlen; omega
    | hd :: st :: tail, _ => exact .inr ⟨hd, st, tail, rfl, hp.symm.trans h⟩

/-- Settles O37: each source of an error gives the rows of the error table it is the cause of. -/
theorem errorsComeOnlyFromTheirCauses : Obligations.ErrorsComeOnlyFromTheirCauses := by
  intro i s t e hx hr
  rcases exec_error_cases hx hr with hop | ⟨rfl, hport, ha⟩ | ⟨k, rx, rfl, hp⟩
  · cases hop with
    | motorSpeed hv => exact .inl ⟨_, _, rfl, hv⟩
    | pulsesSpeed hv => exact .inr (.inl ⟨_, _, _, rfl, hv⟩)
    | zeroSpeed hv => exact .inr (.inr ⟨_, rfl, hv⟩)
    | pulseCount hv hc => exact ⟨_, _, _, rfl, hv, hc⟩
    | currentLimit hi => exact ⟨_, rfl, hi⟩
    | subdivision hn => exact ⟨_, rfl, hn⟩
    | torque hv => exact ⟨_, rfl, hv⟩
  · exact ⟨hport, (addrValid_eq_false_iff s.addr).mp ha⟩
  · rcases parse_error_cases hp with ⟨rfl, hbad⟩ | ⟨hd, st, tail, rfl, he⟩
    · refine ⟨k, rx, rfl, .inr fun hck => ?_⟩
      have hok := packetOk_succ_of_getElem? hck
      rw [Nat.sub_add_cancel (by have := responseLength_ge_three k; omega), hbad] at hok
      cases hok
    · rcases interpret_error he with ⟨rfl, rfl, rfl⟩ | ⟨rfl, rfl, hst⟩ | ⟨hk, rfl, hst⟩
      · exact ⟨_, rfl, rfl⟩
      · exact ⟨_, st, rfl, .inl ⟨rfl, hst⟩⟩
      · exact ⟨_, st, rfl, .inr ⟨hk.imp (by rintro rfl; rfl) (by rintro rfl; rfl), hst⟩⟩

end Sys2Proof.Machine

/-! What the decoder accepts, which response row a context selects, and the reset values. -/

namespace Sys2Proof

open Machine

/-- A response format has no operand to check (30_encoding.md R71). -/
theorem wellFormed_ofKind (k : RespKind) (rx : List Byte) : (Instr.ofKind k rx).WellFormed := by
  cases k <;> rfl

/-- Settles O11: a command is accepted only as a legal command, and received bytes are of the kind
they are read by. -/
theorem decodedInstructionsAreWellFormed : Obligations.DecodedInstructionsAreWellFormed := by
  intro p bytes i h
  cases p with
  | command =>
    obtain ⟨c, -, -, hc, hw, -⟩ := decodeCommand_eq_ok_iff.mp h
    exact ⟨hw, port_eq_command_iff.mpr ⟨c, hc⟩⟩
  | response k =>
    cases h
    exact ⟨wellFormed_ofKind k bytes, Instr.port_ofKind k bytes⟩

/-- Settles O16: the step serves the decode, whose row is the context's, command by command. -/
theorem decodeContextSelectsKind : Obligations.DecodeContextSelectsKind := by
  intro s c rx rest hp
  rw [step_of_pending_cons hp]
  cases c <;> rfl

/-- Settles O19: `reset` empties the buffer and sets the reset address. -/
theorem resetOperationRestoresInitialState : Obligations.ResetOperationRestoresInitialState :=
  fun _ _ hp => ⟨_, step_reset hp, rfl, fun _ => rfl, rfl, rfl, rfl, rfl⟩

/-- Settles O20: the empty buffer reads as the fill byte everywhere. -/
theorem resetStateValues : Obligations.ResetStateValues :=
  ⟨rfl, Memory.read_nil, rfl, rfl, rfl⟩

/-- Settles O34: each code as listed. -/
theorem errorCodesFollowTheirTable : Obligations.ErrorCodesFollowTheirTable :=
  ⟨rfl, rfl, rfl, rfl, rfl, rfl, rfl, rfl, rfl, fun _ => rfl, fun _ => rfl⟩

end Sys2Proof
